-- ==== Sys2Proof/Word.lean ====
section
/-! DEFINITION. The widths of the block's values (`00_scope.md` R4, R5): bytes, 32-bit words, 128-bit integers, window offsets. -/

namespace Sys2Proof

/-- One byte of a Q register or of BUF. -/
abbrev Byte := BitVec 8

/-- A 32-bit value: a bus word, a command word, a cipher word, the CRC register (R4, R41). -/
abbrev Word := BitVec 32

/-- A big integer `0 <= a < 2^128` (R90), the content of a Q register in its integer view (R6, R10). -/
abbrev Big := BitVec 128

/-- A byte offset of the host window, `0x0000`..`0x1FFF` (R40, R41): 13 bits, so that an offset outside the
window (R43, V9) cannot be written down. -/
abbrev Offset := BitVec 13

end Sys2Proof
end

