-- ==== Sys2Proof/Syntax.lean ====
section
/-! DEFINITION. The syntax of the block: register names, the eleven commands, the rejection codes. -/

namespace Sys2Proof

/-- The eight general registers (R10, R11). A command that names anything else cannot be written down:
index values 8..15 of a register field are refused by the decoder (R72, R75). -/
inductive QReg where
  | q0 | q1 | q2 | q3 | q4 | q5 | q6 | q7
deriving DecidableEq, Repr

/-- The eleven commands (R73), one constructor per row of the opcode table. Operands stand in the order of
the assembler syntax (R80): destination, first source, second source, modulus. -/
inductive Instr where
  /-- `BI_ADD Qd, Qs1, Qs2` (R95) -/
  | biAdd (d s1 s2 : QReg)
  /-- `BI_SHL1 Qd, Qs1` (R96) -/
  | biShl1 (d s1 : QReg)
  /-- `BI_SHR1 Qd, Qs1` (R97) -/
  | biShr1 (d s1 : QReg)
  /-- `BI_CMP Qs1, Qs2` (R98) -/
  | biCmp (s1 s2 : QReg)
  /-- `BI_FIX Qd, Qs1, Qm` (R99) -/
  | biFix (d s1 m : QReg)
  /-- `MX_MULMOD Qd, Qs1, Qs2, Qm` (R112) -/
  | mxMulmod (d s1 s2 m : QReg)
  /-- `MX_MODEXP Qd, Qs1, Qs2, Qm` (R113): base `Qs1`, exponent `Qs2` -/
  | mxModexp (d s1 s2 m : QReg)
  /-- `BC_ENC Qk` (R137) -/
  | bcEnc (k : QReg)
  /-- `BC_DEC Qk` (R138) -/
  | bcDec (k : QReg)
  /-- `CRC_INIT` (R152) -/
  | crcInit
  /-- `CRC_UPD` (R153) -/
  | crcUpd
deriving DecidableEq, Repr

/-- Why a command word is rejected at issue (R77, R186). -/
inductive CmdError where
  /-- code 1: the low byte is no defined opcode (R188) -/
  | illegalOpcode
  /-- code 2: a must-be-zero bit of a defined opcode is 1 (R189) -/
  | reservedField
  /-- code 3: a buffer command finds BLEN outside what it accepts (R190) -/
  | badLength
deriving DecidableEq, Repr

end Sys2Proof
end

