-- ==== Sys2Proof/WellFormed.lean ====
section
/-! DEFINITION. Which 32-bit words are well-formed commands (R75), stated by the `match`/`mask` pairs of the
opcode table and so apart from the decoder, which reads the fields. An ill-formed `Instr` cannot be built: its
operands are registers `Q0`..`Q7` by type. -/

namespace Sys2Proof

/-- One row of the opcode table: a word `w` is a well-formed instance iff `(w AND mask) = pattern` (R75). -/
structure OpRow where
  mnemonic : String
  mask : Word
  pattern : Word
deriving DecidableEq, Repr

/-- The eleven rows (`30_encoding.md` R73, R75; `95_test_vectors.md` section 2.2). -/
def opRows : List OpRow :=
  [⟨"BI_ADD", 0xFFF888FF, 0x00000010⟩,
   ⟨"BI_SHL1", 0xFFFF88FF, 0x00000011⟩,
   ⟨"BI_SHR1", 0xFFFF88FF, 0x00000012⟩,
   ⟨"BI_CMP", 0xFFF88FFF, 0x00000013⟩,
   ⟨"BI_FIX", 0xFF8F88FF, 0x00000014⟩,
   ⟨"MX_MULMOD", 0xFF8888FF, 0x00000020⟩,
   ⟨"MX_MODEXP", 0xFF8888FF, 0x00000021⟩,
   ⟨"BC_ENC", 0xFFFF8FFF, 0x00000030⟩,
   ⟨"BC_DEC", 0xFFFF8FFF, 0x00000031⟩,
   ⟨"CRC_INIT", 0xFFFFFFFF, 0x00000040⟩,
   ⟨"CRC_UPD", 0xFFFFFFFF, 0x00000041⟩]

/-- `w` is an instance of the row. -/
def OpRow.matchesWord (r : OpRow) (w : Word) : Bool := (w &&& r.mask) == r.pattern

/-- `w` is a well-formed command (R75): conditions (a) to (d) together. It depends on the word alone (R79). -/
def wellFormedWord (w : Word) : Bool := opRows.any fun r => r.matchesWord w

/-- The mnemonic of a command, as the opcode table spells it. -/
def Instr.mnemonic : Instr → String
  | .biAdd _ _ _ => "BI_ADD"
  | .biShl1 _ _ => "BI_SHL1"
  | .biShr1 _ _ => "BI_SHR1"
  | .biCmp _ _ => "BI_CMP"
  | .biFix _ _ _ => "BI_FIX"
  | .mxMulmod _ _ _ _ => "MX_MULMOD"
  | .mxModexp _ _ _ _ => "MX_MODEXP"
  | .bcEnc _ => "BC_ENC"
  | .bcDec _ => "BC_DEC"
  | .crcInit => "CRC_INIT"
  | .crcUpd => "CRC_UPD"

end Sys2Proof
end

