-- ==== Sys2Proof/Decode.lean ====
section
/-! DEFINITION. Decoding a command word in the order of R77 steps 1 and 2, and the encoder of R74. A command is
one 32-bit bus word (R70), bit `i` of the word being bit `i` of the bus (R47 iv); there is no fetch and so no
byte order of an instruction. -/

namespace Sys2Proof

/-- The fields of format C (R71). -/
def fieldOp (w : Word) : BitVec 8 := w.extractLsb' 0 8
def fieldRd (w : Word) : BitVec 4 := w.extractLsb' 8 4
def fieldRs1 (w : Word) : BitVec 4 := w.extractLsb' 12 4
def fieldRs2 (w : Word) : BitVec 4 := w.extractLsb' 16 4
def fieldRm (w : Word) : BitVec 4 := w.extractLsb' 20 4
def fieldZ (w : Word) : BitVec 8 := w.extractLsb' 24 8

/-- The index of a register (R10). -/
def QReg.index : QReg → Nat
  | .q0 => 0
  | .q1 => 1
  | .q2 => 2
  | .q3 => 3
  | .q4 => 4
  | .q5 => 5
  | .q6 => 6
  | .q7 => 7

/-- The register of an index; 8 and above name none (R72). -/
def QReg.ofIndex : Nat → Option QReg
  | 0 => some .q0
  | 1 => some .q1
  | 2 => some .q2
  | 3 => some .q3
  | 4 => some .q4
  | 5 => some .q5
  | 6 => some .q6
  | 7 => some .q7
  | _ => none

/-- A USED register field: a value 8..15 is a nonzero must-be-zero bit (R75 (d), R189). -/
def usedField (f : BitVec 4) : Except CmdError QReg :=
  match QReg.ofIndex f.toNat with
  | some r => .ok r
  | none => .error .reservedField

/-- A field that must be zero: an UNUSED register field (R75 (c)) or `Z` (R75 (b)). -/
def mustBeZero {n : Nat} (f : BitVec n) : Except CmdError Unit :=
  if f = 0 then .ok () else .error .reservedField

/-- Decoding (R77 steps 1 and 2): first the opcode, then the must-be-zero bits and register fields (R73, R75).
Every word is either a command or rejected by name (R78). -/
def decode (w : Word) : Except CmdError Instr :=
  match (fieldOp w).toNat with
  | 0x10 => do
    mustBeZero (fieldZ w); mustBeZero (fieldRm w)
    return .biAdd (← usedField (fieldRd w)) (← usedField (fieldRs1 w)) (← usedField (fieldRs2 w))
  | 0x11 => do
    mustBeZero (fieldZ w); mustBeZero (fieldRm w); mustBeZero (fieldRs2 w)
    return .biShl1 (← usedField (fieldRd w)) (← usedField (fieldRs1 w))
  | 0x12 => do
    mustBeZero (fieldZ w); mustBeZero (fieldRm w); mustBeZero (fieldRs2 w)
    return .biShr1 (← usedField (fieldRd w)) (← usedField (fieldRs1 w))
  | 0x13 => do
    mustBeZero (fieldZ w); mustBeZero (fieldRm w); mustBeZero (fieldRd w)
    return .biCmp (← usedField (fieldRs1 w)) (← usedField (fieldRs2 w))
  | 0x14 => do
    mustBeZero (fieldZ w); mustBeZero (fieldRs2 w)
    return .biFix (← usedField (fieldRd w)) (← usedField (fieldRs1 w)) (← usedField (fieldRm w))
  | 0x20 => do
    mustBeZero (fieldZ w)
    return .mxMulmod (← usedField (fieldRd w)) (← usedField (fieldRs1 w)) (← usedField (fieldRs2 w)) (← usedField (fieldRm w))
  | 0x21 => do
    mustBeZero (fieldZ w)
    return .mxModexp (← usedField (fieldRd w)) (← usedField (fieldRs1 w)) (← usedField (fieldRs2 w)) (← usedField (fieldRm w))
  | 0x30 => do
    mustBeZero (fieldZ w); mustBeZero (fieldRm w); mustBeZero (fieldRs2 w); mustBeZero (fieldRd w)
    return .bcEnc (← usedField (fieldRs1 w))
  | 0x31 => do
    mustBeZero (fieldZ w); mustBeZero (fieldRm w); mustBeZero (fieldRs2 w); mustBeZero (fieldRd w)
    return .bcDec (← usedField (fieldRs1 w))
  | 0x40 => do
    mustBeZero (fieldZ w); mustBeZero (fieldRm w); mustBeZero (fieldRs2 w); mustBeZero (fieldRs1 w)
    mustBeZero (fieldRd w)
    return .crcInit
  | 0x41 => do
    mustBeZero (fieldZ w); mustBeZero (fieldRm w); mustBeZero (fieldRs2 w); mustBeZero (fieldRs1 w)
    mustBeZero (fieldRd w)
    return .crcUpd
  | _ => .error .illegalOpcode

/-- The code of a register in a 4-bit field (R72). -/
def QReg.code (r : QReg) : Word := BitVec.ofNat 32 r.index

/-- The word with opcode `op` and field codes `d`, `s1`, `s2`, `m` at their places (R71, R74). -/
def encodeWord (op d s1 s2 m : Word) : Word :=
  op ||| d <<< 8 ||| s1 <<< 12 ||| s2 <<< 16 ||| m <<< 20

/-- The command word of a command (R73, R74); a field the command does not use is 0. -/
def encode : Instr → Word
  | .biAdd d s1 s2 => encodeWord 0x10 d.code s1.code s2.code 0
  | .biShl1 d s1 => encodeWord 0x11 d.code s1.code 0 0
  | .biShr1 d s1 => encodeWord 0x12 d.code s1.code 0 0
  | .biCmp s1 s2 => encodeWord 0x13 0 s1.code s2.code 0
  | .biFix d s1 m => encodeWord 0x14 d.code s1.code 0 m.code
  | .mxMulmod d s1 s2 m => encodeWord 0x20 d.code s1.code s2.code m.code
  | .mxModexp d s1 s2 m => encodeWord 0x21 d.code s1.code s2.code m.code
  | .bcEnc k => encodeWord 0x30 0 k.code 0 0
  | .bcDec k => encodeWord 0x31 0 k.code 0 0
  | .crcInit => encodeWord 0x40 0 0 0 0
  | .crcUpd => encodeWord 0x41 0 0 0 0

/-- The command word the opcode table's numbering gives: the low `nbits` bits of `w`, every higher bit 0. A number
of more than 32 bits is no command word (R70). -/
def tableWord (nbits w : Nat) : Option Word :=
  if w % 2 ^ nbits < 2 ^ 32 then some (BitVec.ofNat 32 (w % 2 ^ nbits)) else none

/-- The instruction the decoder reads from the `nbits`-bit number `w`. -/
def decodeTableWord (nbits w : Nat) : Option Instr :=
  match tableWord nbits w with
  | none => none
  | some v =>
    match decode v with
    | .ok i => some i
    | .error _ => none

end Sys2Proof
end

