-- ==== Sys2Proof/Config.lean ====
section
/-! DEFINITION. What an implementation fixes, and the FREE VALUES: constants without a body, so that no proof
can know what they are. `92_eei_decisions.md` section 5 lists every open parameter of the spec. -/

namespace Sys2Proof.Config

/-- `BUF_BYTES`, the size of the data buffer (R4, R14). -/
def bufBytes : Nat := 4096

/-- What a byte of BUF reads as when no cell lists it. DESIGN CHOICE, unsafe: the spec gives BUF no reset
content (R14, U4); log entry 3. -/
def unlistedByte : Byte := 0

/-- FREE VALUE (U2): the data of the `n`-th drawn read of CRC, a Q word or a BUF word while BUSY (R51). Log entry 5. -/
opaque busyReadValue : Nat → Word

/-- FREE VALUE (U3): what is left in the destination register of a command abandoned by a reset (R212). Log entry 5. -/
opaque abandonedQ : Nat → Big

/-- FREE VALUE (U3): what is left in a byte of the buffer range of a cipher command abandoned by a reset (R212):
draw, byte index. Log entry 5. -/
opaque abandonedByte : Nat → Nat → Byte

/-- FREE VALUE (U4): content of a Q register after power-on (R13). Log entry 5. -/
opaque powerOnQ : Nat → QReg → Big

/-- FREE VALUE (U4): content of a byte of BUF after power-on (R14): draw, byte index. Log entry 5. -/
opaque powerOnByte : Nat → Nat → Byte

end Sys2Proof.Config
end

