-- ==== Sys2Proof/Machine/State.lean ====
section
/-! DEFINITION. The state of the block as plain data, why a step can stop, and the machine after reset. -/

namespace Sys2Proof.Machine

/-- The register file Q0..Q7 (R10), each register by the integer it holds: `val128` of its 16 bytes (R6). The
byte view is computed from it (`bigByte`); the two determine each other (log entry 10). -/
structure QFile where
  q0 : Big
  q1 : Big
  q2 : Big
  q3 : Big
  q4 : Big
  q5 : Big
  q6 : Big
  q7 : Big
deriving DecidableEq, Repr

/-- The data buffer BUF (R14): (byte index, byte) cells, indexes strictly rising, no cell equal to what an
unlisted index reads as (`Memory.wf`). -/
abbrev Memory := List Host.Cell

/-- What the port answers to a host transaction (R41, R42). -/
inductive Answer where
  /-- a write that the port took -/
  | ok
  /-- a read that returns data -/
  | data (d : Word)
  /-- a misaligned or reserved offset (R191) -/
  | busError
deriving DecidableEq, Repr

/-- What can happen next: one atomic step of one of the agents (R9). -/
inductive Event where
  /-- `HostRead32(off)` (R41) -/
  | read (off : Offset)
  /-- `HostWrite32(off, d)` (R42) -/
  | write (off : Offset) (d : Word)
  /-- the engine's turn: completion if it holds a command, else it has no enabled step (R168, R176) -/
  | engine
  /-- reset (R210) -/
  | reset
  /-- reset after power-on: Q and BUF hold arbitrary bits (R13, R14, R210) -/
  | powerOn
deriving DecidableEq, Repr

/-- The complete architectural state (`10_state.md`, the tuple at its head), and after it three fields of the model. -/
structure State where
  /-- Q0..Q7 (R10) -/
  q : QFile
  /-- BUF (R14) -/
  buf : Memory
  /-- BLEN (R15) -/
  blen : Word
  /-- CRC (R16) -/
  crc : Word
  /-- CTRL.IE (R17) -/
  ie : Bool
  /-- STATUS.BUSY (R19) -/
  busy : Bool
  /-- STATUS.DONE (R20) -/
  done : Bool
  /-- STATUS.ERR (R21) -/
  err : Bool
  /-- STATUS.WERR (R22) -/
  werr : Bool
  /-- STATUS.CMP (R23) -/
  cmp : BitVec 2
  /-- STATUS.ERRCODE (R21) -/
  errCode : BitVec 4
  /-- CMDR, the last accepted command word (R24) -/
  cmdr : Word
  /-- ERRCMD (R25) -/
  errCmd : Word
  /-- the model's own: the port's answer to the last transaction (log entry 4) -/
  answer : Option Answer
  /-- the model's own: the events still to come, oldest first (log entry 1) -/
  schedule : List Event
  /-- the model's own: how many free values have been drawn (log entry 5) -/
  draws : Nat
deriving DecidableEq, Repr

/-- Why a step stops with a fault. Both need a busy state that R27 (iv) excludes, and no step from a state that
meets `Safety.Inv` raises one (log entry 7). -/
inductive Fault where
  /-- Raised by the completion when the held word is no well-formed command, which R27 (iv) excludes: no word
  but an accepted one is ever held (R166). Safe: the model stops. -/
  | heldWordNotACommand
  /-- Raised by BC_ENC, BC_DEC and CRC_UPD when BLEN is outside the lengths R76 accepts: the engine would touch a
  byte of BUF that does not exist (R14, R190). The check that the spec makes is at issue (R77), and BLEN is locked
  until completion (R50). Safe: the model stops. -/
  | bufferLengthOutOfRange
deriving DecidableEq, Repr

/-- Why a step gives no meaning. -/
inductive Refusal where
  /-- An instruction without a meaning. Raised by no arm of `exec`: every command has its meaning. Safe. -/
  | notModelled (mnemonic : String)
deriving DecidableEq, Repr

/-- The machine after reset (R211, R213). The spec gives no value for Q0..Q7 (R13) and BUF (R14): here every register
is 0 (DESIGN CHOICE, unsafe, log entry 2) and BUF lists nothing (log entry 3). -/
def State.reset : State where
  q := ⟨0, 0, 0, 0, 0, 0, 0, 0⟩
  buf := []
  blen := 0x00000000
  crc := 0xFFFFFFFF
  ie := false
  busy := false
  done := false
  err := false
  werr := false
  cmp := 0
  errCode := 0
  cmdr := 0x00000000
  errCmd := 0x00000000
  answer := none
  schedule := []
  draws := 0

end Sys2Proof.Machine
end

