-- ==== Sys2Proof/Machine/Ops.lean ====
section
/-! DEFINITION. The named operations over BUF and the control registers, the length check, and the block's one
exception: taking it (rejection) and the return from it (the host's clear). -/

namespace Sys2Proof.Machine

/-! Byte order (R6, R47): the one place where bytes become words. -/

/-- `LE32` (R6): `b0` is the least significant byte. -/
def le32 (b0 b1 b2 b3 : Byte) : Word :=
  b0.setWidth 32 ||| b1.setWidth 32 <<< 8 ||| b2.setWidth 32 <<< 16 ||| b3.setWidth 32 <<< 24

/-- Byte `k` of a word in little-endian order: `w[8k+7 : 8k]` (R45, R46). -/
def byteOf (w : Word) (k : Nat) : Byte := w.extractLsb' (8 * k) 8

/-! BUF (R14). -/

/-- `BUF[a]`. -/
def memRead : Memory → Nat → Byte
  | [], _ => Config.unlistedByte
  | c :: cs, a => if c.1 = a then c.2 else memRead cs a

/-- `BUF[a] <- v`, in canonical form: a byte equal to what an unlisted index reads as is not listed. -/
def memWrite : Memory → Nat → Byte → Memory
  | [], a, v => if v = Config.unlistedByte then [] else [(a, v)]
  | c :: cs, a, v =>
    if a < c.1 then (if v = Config.unlistedByte then c :: cs else (a, v) :: c :: cs)
    else if a = c.1 then (if v = Config.unlistedByte then cs else (a, v) :: cs)
    else c :: memWrite cs a v

/-- The canonical form: indexes strictly rising, every index one of BUF, no cell an unlisted index would read as. -/
def Memory.wf (m : Memory) : Bool :=
  decide (m.Pairwise fun c d => c.1 < d.1) && m.all fun c => decide (c.1 < Config.bufBytes) && (c.2 != Config.unlistedByte)

/-- `MemRead(a, 4)` (R7, R46, R135). -/
def memRead32 (m : Memory) (a : Nat) : Word :=
  le32 (memRead m a) (memRead m (a + 1)) (memRead m (a + 2)) (memRead m (a + 3))

/-- `MemWrite(a, 4, w)` (R7, R46, R135). -/
def memWrite32 (m : Memory) (a : Nat) (w : Word) : Memory :=
  memWrite (memWrite (memWrite (memWrite m a (byteOf w 0)) (a + 1) (byteOf w 1)) (a + 2) (byteOf w 2)) (a + 3) (byteOf w 3)

/-- The bytes `BUF[a] .. BUF[a + n - 1]`. -/
def memBytes (m : Memory) (a : Nat) : Nat → List Byte
  | 0 => []
  | n + 1 => memRead m a :: memBytes m (a + 1) n

/-- `BUF[k] <- f k` for `k = 0 .. n - 1`. -/
def memFill (f : Nat → Byte) : Nat → Memory → Memory
  | 0, m => m
  | n + 1, m => memWrite (memFill f n m) n (f n)

/-! Updates of the state, one field or one named effect each. -/

/-- Replace the register file. -/
def State.setQ (f : QFile) (s : State) : State := { s with q := f }

/-- Replace BUF. -/
def State.setBuf (m : Memory) (s : State) : State := { s with buf := m }

/-- `BLEN <- d` (R15). -/
def State.setBlen (d : Word) (s : State) : State := { s with blen := d }

/-- `CRC <- d` (R16). -/
def State.setCrc (d : Word) (s : State) : State := { s with crc := d }

/-- `CTRL.IE <- b` (R17). -/
def State.setIe (b : Bool) (s : State) : State := { s with ie := b }

/-- `STATUS.CMP <- c` (R23). -/
def State.setCmp (c : BitVec 2) (s : State) : State := { s with cmp := c }

/-- A write to locked state while busy is dropped: `STATUS.WERR <- 1` and nothing else (R50, R192). -/
def State.dropWrite (s : State) : State := { s with werr := true }

/-- The port's answer to the transaction just performed. -/
def State.respond (a : Answer) (s : State) : State := { s with answer := some a }

/-- The events still to come. -/
def State.setSchedule (es : List Event) (s : State) : State := { s with schedule := es }

/-- A free value has been drawn. -/
def State.draw (s : State) : State := { s with draws := s.draws + 1 }

/-- An accepted issue (R166): the word is latched, `DONE` cleared, `BUSY` set; nothing else. -/
def State.accept (w : Word) (s : State) : State := { s with cmdr := w, done := false, busy := true }

/-- The end of a completion (R168): `BUSY <- 0`, `DONE <- 1`. -/
def State.finish (s : State) : State := { s with busy := false, done := true }

/-! The exception of the block and the return from it. -/

/-- The code recorded in ERRCODE (R186). -/
def CmdError.code : CmdError → BitVec 4
  | .illegalOpcode => 1
  | .reservedField => 2
  | .badLength => 3

/-- TAKING THE EXCEPTION (R166, R167, R187, R196): code and word are recorded only if `ERR` was 0, then `ERR` and
`DONE` are set. Nothing else changes. -/
def State.reject (e : CmdError) (w : Word) (s : State) : State :=
  { s with
    errCode := if s.err then s.errCode else CmdError.code e
    errCmd := if s.err then s.errCmd else w
    err := true
    done := true }

/-- THE RETURN FROM IT (R171, R197): the host's clear of `ERR` also clears ERRCODE and ERRCMD. -/
def State.clearError (s : State) : State := { s with err := false, errCode := 0, errCmd := 0 }

/-- Clear `DONE` (R171). -/
def State.clearDone (s : State) : State := { s with done := false }

/-- Clear `WERR` (R171). -/
def State.clearWerr (s : State) : State := { s with werr := false }

/-! The length check (R76). -/

/-- The lengths BC_ENC and BC_DEC accept (R76, R141). -/
def cipherLengthOk (len : Nat) : Bool := len == 0 || (decide (8 ≤ len) && decide (len ≤ Config.bufBytes))

/-- The lengths CRC_UPD accepts (R76, R153). -/
def crcLengthOk (len : Nat) : Bool := decide (len ≤ Config.bufBytes)

/-- Dynamic validity of a well-formed command (R76). -/
def acceptable (i : Instr) (blen : Word) : Bool :=
  match i with
  | .biAdd _ _ _ => true
  | .biShl1 _ _ => true
  | .biShr1 _ _ => true
  | .biCmp _ _ => true
  | .biFix _ _ _ => true
  | .mxMulmod _ _ _ _ => true
  | .mxModexp _ _ _ _ => true
  | .bcEnc _ => cipherLengthOk blen.toNat
  | .bcDec _ => cipherLengthOk blen.toNat
  | .crcInit => true
  | .crcUpd => crcLengthOk blen.toNat

/-- The whole test of an issue attempt (R77): decode, then the length check. -/
def checkIssue (w blen : Word) : Except CmdError Instr :=
  match decode w with
  | .error e => .error e
  | .ok i => if acceptable i blen then .ok i else .error .badLength

/-- An issue attempt (R166): dropped while busy, else rejected or accepted. -/
def State.issue (w : Word) (s : State) : State :=
  if s.busy then s.dropWrite
  else
    match checkIssue w s.blen with
    | .error e => s.reject e w
    | .ok _ => s.accept w

end Sys2Proof.Machine
end

