-- ==== Sys2Proof/Machine/Flags.lean ====
section
/-! DEFINITION. The status word, the condition code, the control word and the interrupt output. -/

namespace Sys2Proof.Machine

/-- The condition code of a comparison (R23, R93, R98): `00` equal, `01` first greater, `10` first less. -/
def cmpCode (a b : Big) : BitVec 2 :=
  if a = b then 0b00 else if b < a then 0b01 else 0b10

/-- A one-bit flag at bit `k` of a word. -/
def flagAt (b : Bool) (k : Nat) : Word := (BitVec.ofBool b).setWidth 32 <<< k

/-- STATUS as the host reads it (R18, R172): `BUSY` 0, `DONE` 1, `ERR` 2, `WERR` 3, `CMP` 5:4, `ERRCODE` 11:8, every
other bit 0. -/
def statusWord (s : State) : Word :=
  flagAt s.busy 0 ||| flagAt s.done 1 ||| flagAt s.err 2 ||| flagAt s.werr 3 ||| s.cmp.setWidth 32 <<< 4
    ||| s.errCode.setWidth 32 <<< 8

/-- CTRL as the host reads it (R17, R44): `IE` at bit 0, every other bit 0. -/
def ctrlWord (s : State) : Word := flagAt s.ie 0

/-- The interrupt output (R26, R173, R194). -/
def State.irq (s : State) : Bool := s.ie && s.done

/-- The host's write of `d` to STATUS (R171): write 1 to clear `DONE`, `ERR`, `WERR`; the other bits are ignored. -/
def State.writeStatus (d : Word) (s : State) : State :=
  let s1 := if d.getLsbD 1 then s.clearDone else s
  let s2 := if d.getLsbD 2 then s1.clearError else s1
  if d.getLsbD 3 then s2.clearWerr else s2

end Sys2Proof.Machine
end

