-- ==== Sys2Proof/Machine/Operands.lean ====
section
/-! DEFINITION. The operand forms: Q registers as integers (R6, R7), as bytes and window words (R45), as cipher
keys (R130). -/

namespace Sys2Proof.Machine

/-- The integer a register holds. -/
def QFile.get (f : QFile) : QReg → Big
  | .q0 => f.q0
  | .q1 => f.q1
  | .q2 => f.q2
  | .q3 => f.q3
  | .q4 => f.q4
  | .q5 => f.q5
  | .q6 => f.q6
  | .q7 => f.q7

/-- The file with one register replaced; no register is hardwired (R11). -/
def QFile.set (f : QFile) (r : QReg) (v : Big) : QFile :=
  match r with
  | .q0 => { f with q0 := v }
  | .q1 => { f with q1 := v }
  | .q2 => { f with q2 := v }
  | .q3 => { f with q3 := v }
  | .q4 => { f with q4 := v }
  | .q5 => { f with q5 := v }
  | .q6 => { f with q6 := v }
  | .q7 => { f with q7 := v }

/-- `Q[r]` (R7). -/
def State.readQ (s : State) (r : QReg) : Big := s.q.get r

/-- `Q[r] <- v` (R7): all 16 bytes of one register and no byte of another (R12). -/
def State.writeQ (s : State) (r : QReg) (v : Big) : State := s.setQ (s.q.set r v)

/-- Byte `i` of a big integer, byte 0 the most significant (R6). -/
def bigByte (v : Big) (i : Nat) : Byte := v.extractLsb' (8 * (15 - i)) 8

/-- The big integer with byte `i` (0..15) replaced. -/
def setBigByte (v : Big) (i : Nat) (b : Byte) : Big :=
  (v &&& ~~~((0xFF : Big) <<< (8 * (15 - i)))) ||| (b.setWidth 128 <<< (8 * (15 - i)))

/-- Window word `j` (0..3) of a register (R45): `LE32` of its bytes `4j .. 4j+3`. -/
def bigWord (v : Big) (j : Nat) : Word :=
  le32 (bigByte v (4 * j)) (bigByte v (4 * j + 1)) (bigByte v (4 * j + 2)) (bigByte v (4 * j + 3))

/-- The register with window word `j` written (R45): `QB[n][4j+k] <- d[8k+7 : 8k]`, the other bytes unchanged. -/
def setBigWord (v : Big) (j : Nat) (d : Word) : Big :=
  setBigByte (setBigByte (setBigByte (setBigByte v (4 * j) (byteOf d 0)) (4 * j + 1) (byteOf d 1)) (4 * j + 2) (byteOf d 2))
    (4 * j + 3) (byteOf d 3)

/-- A cipher key `K = (a, b, c, d)` (R130). -/
structure Key where
  a : Word
  b : Word
  c : Word
  d : Word
deriving DecidableEq, Repr

/-- The key words of a register: its four window words in order (R130). -/
def keyWords (v : Big) : Key := ⟨bigWord v 0, bigWord v 1, bigWord v 2, bigWord v 3⟩

end Sys2Proof.Machine
end

