-- ==== Sys2Proof/Machine/BigInt.lean ====
section
/-! DEFINITION. bigint128_alu: BI_ADD, BI_SHL1, BI_SHR1, BI_CMP, BI_FIX (`40_bigint128_alu.md`). -/

namespace Sys2Proof.Machine

/-- `Add128` (R91): the sum modulo `2^128`. -/
def add128 (a b : Big) : Big := a + b

/-- `Shl1` (R92): bit 127 is lost, 0 enters at bit 0. -/
def shl1 (a : Big) : Big := a <<< 1

/-- `Shr1` (R92): bit 0 is lost, 0 enters at bit 127. -/
def shr1 (a : Big) : Big := a >>> 1

/-- `Fix` (R94): one subtraction, and only if `a` is strictly above `m`. -/
def fix (a m : Big) : Big := if m < a then a - m else a

/-- `BI_ADD` (R95). -/
def execBiAdd (d s1 s2 : QReg) (s : State) : Host.Outcome State Fault Refusal :=
  .next (s.writeQ d (add128 (s.readQ s1) (s.readQ s2)))

/-- `BI_SHL1` (R96). -/
def execBiShl1 (d s1 : QReg) (s : State) : Host.Outcome State Fault Refusal :=
  .next (s.writeQ d (shl1 (s.readQ s1)))

/-- `BI_SHR1` (R97). -/
def execBiShr1 (d s1 : QReg) (s : State) : Host.Outcome State Fault Refusal :=
  .next (s.writeQ d (shr1 (s.readQ s1)))

/-- `BI_CMP` (R98): the only command that writes `STATUS.CMP`. -/
def execBiCmp (s1 s2 : QReg) (s : State) : Host.Outcome State Fault Refusal :=
  .next (s.setCmp (cmpCode (s.readQ s1) (s.readQ s2)))

/-- `BI_FIX` (R99). -/
def execBiFix (d s1 m : QReg) (s : State) : Host.Outcome State Fault Refusal :=
  .next (s.writeQ d (fix (s.readQ s1) (s.readQ m)))

end Sys2Proof.Machine
end

