-- ==== Sys2Proof/Machine/BlockCipher.lean ====
section
/-! DEFINITION. block_cipher_core: BC_ENC, BC_DEC (`42_block_cipher_core.md`). -/

namespace Sys2Proof.Machine

/-- `ROUNDS`, `DELTA`, `DSUM0` (R4). -/
def rounds : Nat := 32
def delta : Word := 0x9E3779B9
def dsum0 : Word := 0xC6EF3720

/-- `((v<<4)+k0) XOR (v+sum) XOR ((v>>5)+k1)` (R131, R132): logical shifts, each sum modulo `2^32`. -/
def mix (v k0 k1 sum : Word) : Word := ((v <<< 4) + k0) ^^^ (v + sum) ^^^ ((v >>> 5) + k1)

/-- The working copies of the cipher (R30): the block and the round sum. -/
structure Round where
  y : Word
  z : Word
  sum : Word
deriving DecidableEq, Repr

/-- One round of `EncBlock` (R132): `sum`, then `y`, then `z` from the new `y`. -/
def encRound (k : Key) (x : Round) : Round :=
  let sum := x.sum + delta
  let y := x.y + mix x.z k.a k.b sum
  let z := x.z + mix y k.c k.d sum
  ⟨y, z, sum⟩

/-- One round of `DecBlock` (R133): `z`, then `y` from the restored `z`, then `sum`. -/
def decRound (k : Key) (x : Round) : Round :=
  let z := x.z - mix x.y k.c k.d x.sum
  let y := x.y - mix z k.a k.b x.sum
  ⟨y, z, x.sum - delta⟩

/-- `n` rounds of either kind. -/
def cipherLoop (f : Round → Round) : Nat → Round → Round
  | 0, x => x
  | n + 1, x => cipherLoop f n (f x)

/-- `EncBlock` (R132). -/
def encBlock (k : Key) (y z : Word) : Word × Word :=
  let r := cipherLoop (encRound k) rounds ⟨y, z, 0⟩
  (r.y, r.z)

/-- `DecBlock` (R133). -/
def decBlock (k : Key) (y z : Word) : Word × Word :=
  let r := cipherLoop (decRound k) rounds ⟨y, z, dsum0⟩
  (r.y, r.z)

/-- `EncAt(o)` and `DecAt(o)` (R135) for the block function `f`: the block's words are little-endian, `y` first. -/
def blockAt (f : Word → Word → Word × Word) (o : Nat) (m : Memory) : Memory :=
  let r := f (memRead32 m o) (memRead32 m (o + 4))
  memWrite32 (memWrite32 m o r.1) (o + 4) r.2

/-- The first `n` whole blocks in the order `0, 8, 16, …` (R137). -/
def wholeBlocks (f : Word → Word → Word × Word) : Nat → Memory → Memory
  | 0, m => m
  | n + 1, m => blockAt f (8 * n) (wholeBlocks f n m)

/-- Encrypt the first `len` bytes (R137): the whole blocks, then the overlapping tail block at `len - 8`. -/
def encBuffer (k : Key) (len : Nat) (m : Memory) : Memory :=
  let m1 := wholeBlocks (encBlock k) (len / 8) m
  if len % 8 = 0 then m1 else blockAt (encBlock k) (len - 8) m1

/-- Decrypt the first `len` bytes (R138): the tail block first, then the whole blocks. -/
def decBuffer (k : Key) (len : Nat) (m : Memory) : Memory :=
  let m1 := if len % 8 = 0 then m else blockAt (decBlock k) (len - 8) m
  wholeBlocks (decBlock k) (len / 8) m1

/-- `BC_ENC` (R137). -/
def execBcEnc (k : QReg) (s : State) : Host.Outcome State Fault Refusal :=
  if cipherLengthOk s.blen.toNat then .next (s.setBuf (encBuffer (keyWords (s.readQ k)) s.blen.toNat s.buf))
  else .fault .bufferLengthOutOfRange

/-- `BC_DEC` (R138). -/
def execBcDec (k : QReg) (s : State) : Host.Outcome State Fault Refusal :=
  if cipherLengthOk s.blen.toNat then .next (s.setBuf (decBuffer (keyWords (s.readQ k)) s.blen.toNat s.buf))
  else .fault .bufferLengthOutOfRange

end Sys2Proof.Machine
end

