-- ==== Sys2Proof/Machine/Crc.lean ====
section
/-! DEFINITION. crc32_generator: CRC_INIT, CRC_UPD (`43_crc32_generator.md`). -/

namespace Sys2Proof.Machine

/-- `POLY` and `CRC0` (R4). -/
def poly : Word := 0xEDB88320
def crc0 : Word := 0xFFFFFFFF

/-- One bit step of `CrcByte` (R150). -/
def crcStep (c : Word) : Word := if c.getLsbD 0 then (c >>> 1) ^^^ poly else c >>> 1

/-- `n` bit steps. -/
def crcSteps : Nat → Word → Word
  | 0, c => c
  | n + 1, c => crcSteps n (crcStep c)

/-- `CrcByte(crc, x)` (R150): the byte enters at bits 7:0, then eight steps. -/
def crcByte (c : Word) (x : Byte) : Word := crcSteps 8 (c ^^^ x.setWidth 32)

/-- `CrcUpdate(crc, bytes)` (R151): first byte first, no final inversion (`90_conflicts.md` C6). -/
def crcUpdate : Word → List Byte → Word
  | c, [] => c
  | c, x :: xs => crcUpdate (crcByte c x) xs

/-- `CRC_INIT` (R152). -/
def execCrcInit (s : State) : Host.Outcome State Fault Refusal :=
  .next (s.setCrc crc0)

/-- `CRC_UPD` (R153): continues from the current CRC. -/
def execCrcUpd (s : State) : Host.Outcome State Fault Refusal :=
  if crcLengthOk s.blen.toNat then .next (s.setCrc (crcUpdate s.crc (memBytes s.buf 0 s.blen.toNat)))
  else .fault .bufferLengthOutOfRange

end Sys2Proof.Machine
end

