-- ==== Sys2Proof/Machine/ModExp.lean ====
section
/-! DEFINITION. modexp_engine: MX_MULMOD, MX_MODEXP (`41_modexp_engine.md`). The step lists are the meaning, not
the mathematical product and power (`90_conflicts.md` C1, C3). -/

namespace Sys2Proof.Machine

/-- `MUL_ITER` and `EXP_ITER` (R4). -/
def mulIter : Nat := 128
def expIter : Nat := 128

/-- The working copies of `MulMod` (R110): multiplier, addend, accumulator. -/
structure MulRegs where
  t1 : Big
  t2 : Big
  acc : Big
deriving DecidableEq, Repr

/-- One iteration of `MulMod` (R110): the conditional add uses `t2` before it is doubled. -/
def mulStep (m : Big) (x : MulRegs) : MulRegs where
  acc := if x.t1.getLsbD 0 then fix (add128 x.acc x.t2) m else x.acc
  t1 := shr1 x.t1
  t2 := fix (shl1 x.t2) m

/-- `n` iterations. -/
def mulLoop (m : Big) : Nat → MulRegs → MulRegs
  | 0, x => x
  | n + 1, x => mulLoop m n (mulStep m x)

/-- `MulMod(a, b, m)` (R110): `a` is scanned, `b` is added and doubled. -/
def mulMod (a b m : Big) : Big := (mulLoop m mulIter ⟨a, b, 0⟩).acc

/-- The working copies of `ModExp` (R111): running base, shifted exponent, result. -/
structure ExpRegs where
  g : Big
  e : Big
  out : Big
deriving DecidableEq, Repr

/-- One iteration of `ModExp` (R111): multiply if the exponent bit is 1, then square, then shift. -/
def expStep (m : Big) (x : ExpRegs) : ExpRegs where
  out := if x.e.getLsbD 0 then mulMod x.out x.g m else x.out
  g := mulMod x.g x.g m
  e := shr1 x.e

/-- `n` iterations. -/
def expLoop (m : Big) : Nat → ExpRegs → ExpRegs
  | 0, x => x
  | n + 1, x => expLoop m n (expStep m x)

/-- `ModExp(g, e, m)` (R111). -/
def modExp (g e m : Big) : Big := (expLoop m expIter ⟨g, e, 1⟩).out

/-- `MX_MULMOD` (R112). -/
def execMxMulmod (d s1 s2 m : QReg) (s : State) : Host.Outcome State Fault Refusal :=
  .next (s.writeQ d (mulMod (s.readQ s1) (s.readQ s2) (s.readQ m)))

/-- `MX_MODEXP` (R113). -/
def execMxModexp (d s1 s2 m : QReg) (s : State) : Host.Outcome State Fault Refusal :=
  .next (s.writeQ d (modExp (s.readQ s1) (s.readQ s2) (s.readQ m)))

end Sys2Proof.Machine
end

