-- ==== Sys2Proof/Machine/Dispatch.lean ====
section
/-! DEFINITION. The dispatch at completion (R170): one arm per command. -/

namespace Sys2Proof.Machine

def exec (i : Instr) (s : State) : Host.Outcome State Fault Refusal :=
  match i with
  | .biAdd d s1 s2 => Sys2Proof.Machine.execBiAdd d s1 s2 s
  | .biShl1 d s1 => Sys2Proof.Machine.execBiShl1 d s1 s
  | .biShr1 d s1 => Sys2Proof.Machine.execBiShr1 d s1 s
  | .biCmp s1 s2 => Sys2Proof.Machine.execBiCmp s1 s2 s
  | .biFix d s1 m => Sys2Proof.Machine.execBiFix d s1 m s
  | .mxMulmod d s1 s2 m => Sys2Proof.Machine.execMxMulmod d s1 s2 m s
  | .mxModexp d s1 s2 m => Sys2Proof.Machine.execMxModexp d s1 s2 m s
  | .bcEnc k => Sys2Proof.Machine.execBcEnc k s
  | .bcDec k => Sys2Proof.Machine.execBcDec k s
  | .crcInit => Sys2Proof.Machine.execCrcInit s
  | .crcUpd => Sys2Proof.Machine.execCrcUpd s

end Sys2Proof.Machine
end

