-- ==== Sys2Proof/Machine/Completion.lean ====
section
/-! DEFINITION. The engine's only step: completion (R168, R170). -/

namespace Sys2Proof.Machine

/-- The completion of a command (R168): perform it, then `BUSY <- 0` and `DONE <- 1`. A stop stays a stop. -/
def finishOutcome : Host.Outcome State Fault Refusal → Host.Outcome State Fault Refusal
  | .next t => .next t.finish
  | .fault f => .fault f
  | .refused r => .refused r

/-- The engine's turn: the completion of the held command if it is busy (R168, R170), no step if it is idle (R176). -/
def engineTurn (s : State) : Host.Outcome State Fault Refusal :=
  if s.busy then
    match decode s.cmdr with
    | .ok i => finishOutcome (exec i s)
    | .error _ => .fault .heldWordNotACommand
  else .next s

end Sys2Proof.Machine
end

