-- ==== Sys2Proof/Machine/HostPort.lean ====
section
/-! DEFINITION. The host port: the window's map and the two transactions (`20_memory.md`). -/

namespace Sys2Proof.Machine

/-- What an offset of the window names (R44). -/
inductive Target where
  | ctrl
  | status
  | cmd
  | blen
  | crc
  | errCmd
  /-- word `j` of a Q register (R45) -/
  | qWord (r : QReg) (j : Fin 4)
  /-- word `w` of BUF (R46) -/
  | bufWord (w : Fin 1024)
deriving DecidableEq, Repr

/-- The map of the window (R44). `none`: a misaligned or a reserved offset, which answer the same (R191). Below
`0x100` the Q register is the offset's sixteen-byte row and the word its place in the row; from `0x1000` on the
buffer word is the offset's low 12 bits over 4. -/
def windowTarget (off : Offset) : Option Target :=
  if off.toNat % 4 ≠ 0 then none
  else if off.toNat = 0x0000 then some .ctrl
  else if off.toNat = 0x0004 then some .status
  else if off.toNat = 0x0008 then some .cmd
  else if off.toNat = 0x000C then some .blen
  else if off.toNat = 0x0010 then some .crc
  else if off.toNat = 0x0014 then some .errCmd
  else if off.toNat < 0x0080 then none
  else if off.toNat < 0x0100 then
    match QReg.ofIndex ((off.toNat - 0x0080) / 16) with
    | some r => some (.qWord r (Fin.ofNat 4 (off.toNat / 4)))
    | none => none
  else if off.toNat < 0x1000 then none
  else some (.bufWord (Fin.ofNat 1024 (off.toNat / 4)))

/-- Targets whose writes are dropped while busy (R44, R50). -/
def Target.writeLocked : Target → Bool
  | .ctrl => false
  | .status => false
  | .cmd => true
  | .blen => true
  | .crc => true
  | .errCmd => false
  | .qWord _ _ => true
  | .bufWord _ => true

/-- Targets whose reads are unspecified while busy (R44, R51). -/
def Target.readUnspecified : Target → Bool
  | .ctrl => false
  | .status => false
  | .cmd => false
  | .blen => false
  | .crc => true
  | .errCmd => false
  | .qWord _ _ => true
  | .bufWord _ => true

/-- The word a target holds (R44 to R46). -/
def State.targetWord (s : State) : Target → Word
  | .ctrl => ctrlWord s
  | .status => statusWord s
  | .cmd => s.cmdr
  | .blen => s.blen
  | .crc => s.crc
  | .errCmd => s.errCmd
  | .qWord r j => bigWord (s.readQ r) j.val
  | .bufWord w => memRead32 s.buf (4 * w.val)

/-- What a write does to a target that is not locked (R42 (b) to (f)). -/
def State.writeTarget (t : Target) (d : Word) (s : State) : State :=
  match t with
  | .ctrl => s.setIe (d.getLsbD 0)
  | .status => s.writeStatus d
  | .cmd => s.issue d
  | .blen => s.setBlen d
  | .crc => s.setCrc d
  | .errCmd => s
  | .qWord r j => s.writeQ r (setBigWord (s.readQ r) j.val d)
  | .bufWord w => s.setBuf (memWrite32 s.buf (4 * w.val) d)

/-- `HostRead32(off)` (R41): no effect on the block. A read that is unspecified while busy draws a free value
(R51, U2). -/
def State.hostRead (off : Offset) (s : State) : State :=
  match windowTarget off with
  | none => s.respond .busError
  | some t =>
    if s.busy && t.readUnspecified then (s.respond (.data (Config.busyReadValue s.draws))).draw
    else s.respond (.data (s.targetWord t))

/-- `HostWrite32(off, d)` (R42), its tests in that order: bus error, lock, target. -/
def State.hostWrite (off : Offset) (d : Word) (s : State) : State :=
  match windowTarget off with
  | none => s.respond .busError
  | some t => (if s.busy && t.writeLocked then s.dropWrite else s.writeTarget t d).respond .ok

end Sys2Proof.Machine
end

