-- ==== Sys2Proof/Machine/Reset.lean ====
section
/-! DEFINITION. Reset and power-on (`70_reset_and_hazards.md` R210 to R213). -/

namespace Sys2Proof.Machine

/-- Every control and status field at its reset value, the engine idle (R210, R211). Q and BUF are not written. -/
def State.resetControl (s : State) : State :=
  { s with
    blen := State.reset.blen
    crc := State.reset.crc
    ie := State.reset.ie
    busy := State.reset.busy
    done := State.reset.done
    err := State.reset.err
    werr := State.reset.werr
    cmp := State.reset.cmp
    errCode := State.reset.errCode
    cmdr := State.reset.cmdr
    errCmd := State.reset.errCmd }

/-- The destination of a Q-writing command abandoned by reset: all 16 bytes of the register (R212, U3). -/
def State.abandonQ (d : QReg) (s : State) : State := (s.writeQ d (Config.abandonedQ s.draws)).draw

/-- The destination of a cipher command abandoned by reset: `BUF[0..BLEN-1]` (R212, U3). -/
def State.abandonBuf (s : State) : State :=
  (s.setBuf (memFill (Config.abandonedByte s.draws) (min s.blen.toNat Config.bufBytes) s.buf)).draw

/-- What abandoning a command leaves unspecified (R212, U3). -/
def State.abandon (i : Instr) (s : State) : State :=
  match i with
  | .biAdd d _ _ => s.abandonQ d
  | .biShl1 d _ => s.abandonQ d
  | .biShr1 d _ => s.abandonQ d
  | .biCmp _ _ => s
  | .biFix d _ _ => s.abandonQ d
  | .mxMulmod d _ _ _ => s.abandonQ d
  | .mxModexp d _ _ _ => s.abandonQ d
  | .bcEnc _ => s.abandonBuf
  | .bcDec _ => s.abandonBuf
  | .crcInit => s
  | .crcUpd => s

/-- Reset (R210 to R212): a held command is abandoned, then the control state takes its reset values. -/
def State.applyReset (s : State) : State :=
  if s.busy then
    match decode s.cmdr with
    | .ok i => (s.abandon i).resetControl
    | .error _ => s.resetControl
  else s.resetControl

/-- Power-on (R13, R14, R210, U4): as reset, with arbitrary bits in every Q register and byte of BUF. -/
def State.powerOn (s : State) : State :=
  let f := Config.powerOnQ s.draws
  ((s.setQ ⟨f .q0, f .q1, f .q2, f .q3, f .q4, f .q5, f .q6, f .q7⟩).setBuf
    (memFill (Config.powerOnByte s.draws) Config.bufBytes [])).draw.resetControl

end Sys2Proof.Machine
end

