-- ==== Sys2Proof/Machine/Step.lean ====
section
/-! DEFINITION. One step of the block: the next event of the schedule, or the engine's turn. -/

namespace Sys2Proof.Machine

/-- One atomic step of the agent whose turn it is (R9, R52). With nothing scheduled it is the engine's turn, so
that an accepted command always completes (R169). -/
def step (s : State) : Host.Outcome State Fault Refusal :=
  match s.schedule with
  | [] => engineTurn s
  | .engine :: es => engineTurn (s.setSchedule es)
  | .read off :: es => .next ((s.setSchedule es).hostRead off)
  | .write off d :: es => .next ((s.setSchedule es).hostWrite off d)
  | .reset :: es => .next (s.setSchedule es).applyReset
  | .powerOn :: es => .next (s.setSchedule es).powerOn

/-- The state in which the very next step performs the command word `w`: the word is held as by an accepted issue
(R166) and the engine has the next turn. A number that is no 32-bit word leaves its low 32 bits (log entry 9). -/
def State.withFetchWord (s : State) (nbits w : Nat) : State :=
  (s.accept (BitVec.ofNat 32 (w % 2 ^ nbits))).setSchedule (.engine :: s.schedule)

end Sys2Proof.Machine
end

