-- ==== Sys2Proof/Safety.lean ====
section
/-! DEFINITION. What a safe run of the block is, and the words the statements use: the invariant of R27, frames, the
offsets of the window. -/

namespace Sys2Proof.Safety

open Sys2Proof.Machine

/-- The invariant: R27 (i) to (v), and that BUF is in canonical form. -/
structure Inv (s : State) : Prop where
  /-- BUF is in canonical form -/
  bufWf : s.buf.wf = true
  /-- R27 (i), first half -/
  errCodeZero : s.err = false ↔ s.errCode = 0
  /-- R27 (i), second half -/
  errCmdZero : s.err = false → s.errCmd = 0
  /-- R27 (ii) -/
  errCodeLe : s.errCode.toNat ≤ 3
  /-- R27 (iii) -/
  cmpLegal : s.cmp ≠ 0b11
  /-- R27 (iv) -/
  heldAcceptable : s.busy = true → ∃ i, decode s.cmdr = .ok i ∧ acceptable i s.blen = true
  /-- R27 (v) -/
  busyNotDone : s.busy = true → s.done = false

/-- FRAME of a command whose destination is register `d` (R8, R12): every other register, every byte of BUF and every
other field of the state are as before. -/
def OnlyQ (d : QReg) (s t : State) : Prop :=
  (∀ r, r ≠ d → t.readQ r = s.readQ r) ∧ (∀ a, memRead t.buf a = memRead s.buf a) ∧ t = s.setQ t.q

/-- FRAME of a cipher command (R136): every byte of BUF at or above BLEN, every register and every other field of the
state are as before. -/
def OnlyBufBelowBlen (s t : State) : Prop :=
  (∀ a, s.blen.toNat ≤ a → memRead t.buf a = memRead s.buf a) ∧ (∀ r, t.readQ r = s.readQ r) ∧ t = s.setBuf t.buf

/-- The operand state of a held command (R19, R54): it and the held word are as before. -/
def SameOperands (s t : State) : Prop :=
  t.q = s.q ∧ t.buf = s.buf ∧ t.blen = s.blen ∧ t.crc = s.crc ∧ t.cmdr = s.cmdr

/-- The control and status fields of the spec are at their reset values (R211). -/
def ControlReset (t : State) : Prop :=
  t.blen = 0x00000000 ∧ t.crc = 0xFFFFFFFF ∧ t.ie = false ∧ t.busy = false ∧ t.done = false ∧ t.err = false ∧
    t.werr = false ∧ t.cmp = 0b00 ∧ t.errCode = 0b0000 ∧ t.cmdr = 0x00000000 ∧ t.errCmd = 0x00000000

/-- The event is a host transaction (R9). -/
def isHostEvent : Event → Bool
  | .read _ => true
  | .write _ _ => true
  | .engine => false
  | .reset => false
  | .powerOn => false

/-- The event is a reset (R210). -/
def isResetEvent : Event → Bool
  | .read _ => false
  | .write _ _ => false
  | .engine => false
  | .reset => true
  | .powerOn => true

/-- The destination register of a command, if it has one (R12). -/
def destQ : Instr → Option QReg
  | .biAdd d _ _ => some d
  | .biShl1 d _ => some d
  | .biShr1 d _ => some d
  | .biCmp _ _ => none
  | .biFix d _ _ => some d
  | .mxMulmod d _ _ _ => some d
  | .mxModexp d _ _ _ => some d
  | .bcEnc _ => none
  | .bcDec _ => none
  | .crcInit => none
  | .crcUpd => none

/-- The command writes BUF (R14). -/
def writesBuf : Instr → Bool
  | .biAdd _ _ _ => false
  | .biShl1 _ _ => false
  | .biShr1 _ _ => false
  | .biCmp _ _ => false
  | .biFix _ _ _ => false
  | .mxMulmod _ _ _ _ => false
  | .mxModexp _ _ _ _ => false
  | .bcEnc _ => true
  | .bcDec _ => true
  | .crcInit => false
  | .crcUpd => false

/-- The eleven opcodes (R73, R186). -/
def definedOpcodes : List (BitVec 8) := [0x10, 0x11, 0x12, 0x13, 0x14, 0x20, 0x21, 0x30, 0x31, 0x40, 0x41]

/-- The offset of window word `j` of a register: `0x0080 + 16·n + 4·j` (R44). -/
def qOffset (r : QReg) (j : Nat) : Offset := BitVec.ofNat 13 (0x0080 + 16 * r.index + 4 * j)

/-- The offset of buffer word `w`: `0x1000 + 4·w` (R44). -/
def bufOffset (w : Nat) : Offset := BitVec.ofNat 13 (0x1000 + 4 * w)

/-- A misaligned or reserved offset (R41, R44, R191). -/
def badOffset (off : Offset) : Prop :=
  off.toNat % 4 ≠ 0 ∨ (0x0018 ≤ off.toNat ∧ off.toNat < 0x0080) ∨ (0x0100 ≤ off.toNat ∧ off.toNat < 0x1000)

/-- The offset of a word of a Q register or of BUF (R44). -/
def dataOffset (off : Offset) : Prop :=
  off.toNat % 4 = 0 ∧ ((0x0080 ≤ off.toNat ∧ off.toNat < 0x0100) ∨ 0x1000 ≤ off.toNat)

/-- `bswap32` (R45): the four bytes of a word reversed. -/
def bswap32 (w : Word) : Word := le32 (byteOf w 3) (byteOf w 2) (byteOf w 1) (byteOf w 0)

/-- `Fix` on numbers (R94): one subtraction, and only if `x` is strictly above `m`. -/
def fixNat (x m : Nat) : Nat := if x > m then x - m else x

/-- `n` steps of the machine, stopping at the first fault or refusal. -/
def run (n : Nat) (s : State) : Host.Outcome State Fault Refusal := Host.Core.run Sys2Proof.core n s

/-- A Feistel-block function applied to the two words at byte index `o` of one memory gives the two words there in
another (R135). -/
def BlockIs (f : Word → Word → Word × Word) (o : Nat) (before after : Memory) : Prop :=
  (memRead32 after o, memRead32 after (o + 4)) = f (memRead32 before o) (memRead32 before (o + 4))

end Sys2Proof.Safety
end

