-- ==== Sys2Proof/Certificates/Slice0/Obligations.lean ====
section
/-! DEFINITION. The statements for the provers. Where a statement rests on a choice of the model, its docstring names
the entry of the assumption log. -/

open Sys2Proof Sys2Proof.Machine Sys2Proof.Safety

/-! ## Encoding (`30_encoding.md`) -/

/-- Decode and encode agree on every command: no bit of an operand is dropped, and every encoded word is well-formed
by the opcode table's masks. -/
def Obligations.EveryCommandDecodesFromItsEncoding : Prop :=
  ∀ i : Instr, decode (encode i) = .ok i ∧ wellFormedWord (encode i) = true

/-- A word that decodes to a command is that command's encoding: every bit of a word is checked (R78). -/
def Obligations.OnlyItsEncodingDecodesToACommand : Prop :=
  ∀ (w : Word) (i : Instr), decode w = .ok i → w = encode i

/-- The decoder, which reads fields, accepts exactly the words that the `mask` and `match` pairs of the opcode table
accept, row by row (R75). -/
def Obligations.DecoderAgreesWithTheMaskTable : Prop :=
  (∀ w : Word, ∀ r ∈ opRows, r.matchesWord w = true ↔ ∃ i, decode w = .ok i ∧ i.mnemonic = r.mnemonic) ∧
    ∀ w : Word, wellFormedWord w = true ↔ ∃ i, decode w = .ok i

/-- The order of the tests of an issue attempt (R77): opcode, must-be-zero bits and register fields, length. -/
def Obligations.IssueTestsStopAtTheFirstFailure : Prop :=
  ∀ w blen : Word,
    (fieldOp w ∉ definedOpcodes → checkIssue w blen = .error .illegalOpcode) ∧
    (fieldOp w ∈ definedOpcodes → wellFormedWord w = false → checkIssue w blen = .error .reservedField) ∧
    (∀ i, decode w = .ok i → acceptable i blen = false → checkIssue w blen = .error .badLength) ∧
    (∀ i, decode w = .ok i → acceptable i blen = true → checkIssue w blen = .ok i)

/-- Dynamic validity (R76): a well-formed BC_ENC or BC_DEC is accepted only with BLEN 0 or 8..4096, a CRC_UPD only with
BLEN up to 4096, and every other command always. -/
def Obligations.LengthCheckOfAWellFormedCommand : Prop :=
  ∀ (w blen : Word) (i : Instr), decode w = .ok i →
    (checkIssue w blen = .ok i ↔
      ((∃ k, i = .bcEnc k ∨ i = .bcDec k) → blen.toNat = 0 ∨ (8 ≤ blen.toNat ∧ blen.toNat ≤ 4096)) ∧
      (i = .crcUpd → blen.toNat ≤ 4096)) ∧
    (checkIssue w blen ≠ .ok i → checkIssue w blen = .error .badLength)

/-- The encoding function (R74): the word is the sum of the opcode and the fields at their places. -/
def Obligations.EncodedWordIsTheSumOfItsFields : Prop :=
  (∀ d a b : QReg, (encode (.biAdd d a b)).toNat = 0x10 + d.index * 2 ^ 8 + a.index * 2 ^ 12 + b.index * 2 ^ 16) ∧
  (∀ d a : QReg, (encode (.biShl1 d a)).toNat = 0x11 + d.index * 2 ^ 8 + a.index * 2 ^ 12) ∧
  (∀ d a : QReg, (encode (.biShr1 d a)).toNat = 0x12 + d.index * 2 ^ 8 + a.index * 2 ^ 12) ∧
  (∀ a b : QReg, (encode (.biCmp a b)).toNat = 0x13 + a.index * 2 ^ 12 + b.index * 2 ^ 16) ∧
  (∀ d a m : QReg, (encode (.biFix d a m)).toNat = 0x14 + d.index * 2 ^ 8 + a.index * 2 ^ 12 + m.index * 2 ^ 20) ∧
  (∀ d a b m : QReg, (encode (.mxMulmod d a b m)).toNat =
    0x20 + d.index * 2 ^ 8 + a.index * 2 ^ 12 + b.index * 2 ^ 16 + m.index * 2 ^ 20) ∧
  (∀ d a b m : QReg, (encode (.mxModexp d a b m)).toNat =
    0x21 + d.index * 2 ^ 8 + a.index * 2 ^ 12 + b.index * 2 ^ 16 + m.index * 2 ^ 20) ∧
  (∀ k : QReg, (encode (.bcEnc k)).toNat = 0x30 + k.index * 2 ^ 12) ∧
  (∀ k : QReg, (encode (.bcDec k)).toNat = 0x31 + k.index * 2 ^ 12) ∧
  (encode .crcInit).toNat = 0x40 ∧ (encode .crcUpd).toNat = 0x41 ∧
  encode (.biAdd .q2 .q0 .q1) = 0x00010210 ∧ encode (.mxModexp .q3 .q0 .q1 .q2) = 0x00210321 ∧
  encode (.bcEnc .q4) = 0x00004030 ∧ encode .crcUpd = 0x00000041

/-- Words written out bit by bit from format C (R71, R73), one per command, decode to the commands they stand for. -/
def Obligations.WordsWrittenFromTheFormatDecode : Prop :=
  decode 0b00000000_0000_0001_0000_0010_00010000 = .ok (.biAdd .q2 .q0 .q1) ∧
  decode 0b00000000_0000_0000_0110_0101_00010001 = .ok (.biShl1 .q5 .q6) ∧
  decode 0b00000000_0000_0000_0001_0010_00010010 = .ok (.biShr1 .q2 .q1) ∧
  decode 0b00000000_0000_0110_0101_0000_00010011 = .ok (.biCmp .q5 .q6) ∧
  decode 0b00000000_0111_0000_0011_0001_00010100 = .ok (.biFix .q1 .q3 .q7) ∧
  decode 0b00000000_0010_0001_0000_0011_00100000 = .ok (.mxMulmod .q3 .q0 .q1 .q2) ∧
  decode 0b00000000_0010_0001_0100_0101_00100001 = .ok (.mxModexp .q5 .q4 .q1 .q2) ∧
  decode 0b00000000_0000_0000_0100_0000_00110000 = .ok (.bcEnc .q4) ∧
  decode 0b00000000_0000_0000_0111_0000_00110001 = .ok (.bcDec .q7) ∧
  decode 0b00000000_0000_0000_0000_0000_01000000 = .ok .crcInit ∧
  decode 0b00000000_0000_0000_0000_0000_01000001 = .ok .crcUpd

/-! ## The life of a command (`44_system_command_lifecycle.md`) -/

/-- A step runs the held command: while busy with a word that decodes to `i`, the engine's turn is `exec i`, and after it
`BUSY` is cleared and `DONE` set. That the order of events stands in the schedule, and that the engine has the turn when
nothing is scheduled, is the model's choice (log entry 1). And a command's word, placed as `withFetchWord` places it (log
entry 9), is the command the very next step runs. -/
def Obligations.StepRunsTheHeldCommand : Prop :=
  (∀ (s : State) (i : Instr), s.busy = true → decode s.cmdr = .ok i →
    (s.schedule = [] → step s = finishOutcome (exec i s)) ∧
    (∀ es, s.schedule = .engine :: es → step s = finishOutcome (exec i (s.setSchedule es))) ∧
    (∀ t, exec i s = .next t → finishOutcome (exec i s) = .next { t with busy := false, done := true })) ∧
  (∀ (s : State) (i : Instr), decode (encode i) = .ok i →
    step (s.withFetchWord 32 (encode i).toNat) =
      finishOutcome (exec i { s with cmdr := encode i, done := false, busy := true }))

/-- The three outcomes of a write to CMD (R166, R177): dropped, rejected, accepted, with their complete effects, and the
codes a rejection records (R186). -/
def Obligations.WriteToCmdHasThreeOutcomes : Prop :=
  ∀ (s : State) (w : Word) (es : List Event), s.schedule = .write 0x0008 w :: es →
    (s.busy = true → step s = .next { s with schedule := es, answer := some .ok, werr := true }) ∧
    (s.busy = false → ∀ e, checkIssue w s.blen = .error e →
      step s = .next { s with
        schedule := es, answer := some .ok, err := true, done := true
        errCode := if s.err then s.errCode else CmdError.code e
        errCmd := if s.err then s.errCmd else w }) ∧
    (s.busy = false → ∀ i, checkIssue w s.blen = .ok i →
      step s = .next { s with schedule := es, answer := some .ok, cmdr := w, done := false, busy := true }) ∧
    CmdError.code .illegalOpcode = 1 ∧ CmdError.code .reservedField = 2 ∧ CmdError.code .badLength = 3

/-- Completion (R168): enabled exactly while busy, so that the idle engine's turn changes nothing and the block with nothing
scheduled (log entry 1, the model's choice) is quiescent (R176); it cannot fail for a command that was acceptable; it clears `BUSY`,
sets `DONE`, and changes no other control field, nor BLEN, nor the schedule. -/
def Obligations.CompletionOfAnAcceptedCommand : Prop :=
  (∀ s : State, s.busy = false → engineTurn s = .next s ∧ (s.schedule = [] → step s = .next s)) ∧
  ∀ (s : State) (i : Instr), s.busy = true → decode s.cmdr = .ok i → acceptable i s.blen = true →
    ∃ t u, engineTurn s = .next t ∧ exec i s = .next u ∧ t = { u with busy := false, done := true } ∧
      t.busy = false ∧ t.done = true ∧ t.err = s.err ∧ t.errCode = s.errCode ∧ t.errCmd = s.errCmd ∧ t.werr = s.werr ∧
      t.ie = s.ie ∧ t.cmdr = s.cmdr ∧ t.blen = s.blen ∧ t.answer = s.answer ∧ t.schedule = s.schedule ∧ t.draws = s.draws

/-- Writing STATUS (R171): each of `DONE`, `ERR`, `WERR` is cleared by a 1 in its bit; clearing `ERR` clears ERRCODE and
ERRCMD; nothing else changes, busy or idle; clearing `DONE` lowers `irq`. -/
def Obligations.StatusWriteClearsByOnes : Prop :=
  ∀ (s : State) (d : Word) (es : List Event), s.schedule = .write 0x0004 d :: es →
    step s = .next { s with
      schedule := es, answer := some .ok
      done := s.done && !d.getLsbD 1
      err := s.err && !d.getLsbD 2
      errCode := if d.getLsbD 2 then 0 else s.errCode
      errCmd := if d.getLsbD 2 then 0 else s.errCmd
      werr := s.werr && !d.getLsbD 3 } ∧
    (d.getLsbD 1 = true → ∀ t, step s = .next t → t.irq = false)

/-- Reading STATUS (R172): the fields at their places, the reserved bits 0, no effect on the block. -/
def Obligations.StatusReadShowsItsFields : Prop :=
  ∀ (s : State) (es : List Event), s.schedule = .read 0x0004 :: es →
    ∃ v : Word, step s = .next { s with schedule := es, answer := some (.data v) } ∧
      v.getLsbD 0 = s.busy ∧ v.getLsbD 1 = s.done ∧ v.getLsbD 2 = s.err ∧ v.getLsbD 3 = s.werr ∧
      v.extractLsb' 4 2 = s.cmp ∧ v.extractLsb' 6 2 = 0 ∧ v.extractLsb' 8 4 = s.errCode ∧ v.extractLsb' 12 20 = 0

/-- The plain control registers read exactly at all times (R44, R51): CTRL, CMD, BLEN, ERRCMD. -/
def Obligations.ControlReadsAreExact : Prop :=
  ∀ (s : State) (es : List Event),
    (s.schedule = .read 0x0000 :: es → ∃ v : Word, step s = .next { s with schedule := es, answer := some (.data v) } ∧
      v.getLsbD 0 = s.ie ∧ v.extractLsb' 1 31 = 0) ∧
    (s.schedule = .read 0x0008 :: es → step s = .next { s with schedule := es, answer := some (.data s.cmdr) }) ∧
    (s.schedule = .read 0x000C :: es → step s = .next { s with schedule := es, answer := some (.data s.blen) }) ∧
    (s.schedule = .read 0x0014 :: es → step s = .next { s with schedule := es, answer := some (.data s.errCmd) })

/-- Writing CTRL, BLEN, CRC and ERRCMD (R42, R44): CTRL takes bit 0 at any time, ERRCMD ignores the write, BLEN and CRC
take the word while idle. -/
def Obligations.PlainControlWrites : Prop :=
  ∀ (s : State) (d : Word) (es : List Event),
    (s.schedule = .write 0x0000 d :: es →
      step s = .next { s with schedule := es, answer := some .ok, ie := d.getLsbD 0 }) ∧
    (s.schedule = .write 0x0014 d :: es → step s = .next { s with schedule := es, answer := some .ok }) ∧
    (s.busy = false → s.schedule = .write 0x000C d :: es →
      step s = .next { s with schedule := es, answer := some .ok, blen := d }) ∧
    (s.busy = false → s.schedule = .write 0x0010 d :: es →
      step s = .next { s with schedule := es, answer := some .ok, crc := d })

/-- When `irq = IE AND DONE` rises and falls (R173, R194): it rises only at a completion, at a rejection or when `IE` is
set; it falls only when the host clears `DONE` or `IE`, when a command is accepted, or at a reset. -/
def Obligations.WhatMovesTheInterruptLine : Prop :=
  (∀ s : State, s.irq = (s.ie && s.done)) ∧
  (∀ s t : State, step s = .next t → s.irq = false → t.irq = true →
    (s.busy = true ∧ t.busy = false ∧ (s.schedule = [] ∨ ∃ es, s.schedule = .engine :: es)) ∨
    (s.busy = false ∧ ∃ w es e, s.schedule = .write 0x0008 w :: es ∧ checkIssue w s.blen = .error e) ∨
    (∃ d es, s.schedule = .write 0x0000 d :: es ∧ d.getLsbD 0 = true)) ∧
  (∀ s t : State, step s = .next t → s.irq = true → t.irq = false →
    (∃ d es, s.schedule = .write 0x0004 d :: es ∧ d.getLsbD 1 = true) ∨
    (∃ d es, s.schedule = .write 0x0000 d :: es ∧ d.getLsbD 0 = false) ∨
    (s.busy = false ∧ ∃ w es i, s.schedule = .write 0x0008 w :: es ∧ checkIssue w s.blen = .ok i) ∨
    (∃ e es, s.schedule = e :: es ∧ isResetEvent e = true))

/-- Progress (R169), in the model's bound. From a state that meets the invariant, the steps that the schedule takes and
one more leave the engine idle. And a held command completes unless a reset comes first: after host transactions, however
many, the engine's next turn, scheduled or taken because nothing is, completes it, with the operand state that its rule
gives. The bound is the model's choice, the engine's turn when nothing is scheduled (log entry 1); the spec gives none. -/
def Obligations.HeldCommandCompletesUnlessAResetComesFirst : Prop :=
  (∀ s : State, Inv s → ∃ t, run (s.schedule.length + 1) s = .next t ∧ t.busy = false ∧ t.schedule = [] ∧ Inv t) ∧
  (∀ (s : State) (i : Instr) (es rest : List Event), Inv s → s.busy = true → decode s.cmdr = .ok i →
    (∀ e ∈ es, isHostEvent e = true) → s.schedule = es ∨ s.schedule = es ++ .engine :: rest →
    ∃ t u, run (es.length + 1) s = .next t ∧ exec i s = .next u ∧
      t.q = u.q ∧ t.buf = u.buf ∧ t.crc = u.crc ∧ t.cmp = u.cmp ∧ t.blen = s.blen ∧ t.busy = false ∧ t.done = true)

/-- Operands at completion are those at issue (R54): while a command is held, host transactions, however many, change
neither the operand state nor the held word, and leave the command held. -/
def Obligations.HostCannotChangeHeldOperands : Prop :=
  ∀ (s : State) (es rest : List Event), s.busy = true → s.schedule = es ++ rest → (∀ e ∈ es, isHostEvent e = true) →
    ∃ t, run es.length s = .next t ∧ SameOperands s t ∧ t.cmp = s.cmp ∧ t.busy = true ∧ t.schedule = rest

/-- The two-phase command equals the function call: issue, any host transactions, completion, gives the operand state
that the command's rule gives on the state at issue, and the command is finished. The place of the engine's turn in the
schedule is the model's form of the open latency (log entry 1). -/
def Obligations.IssueThenCompletionIsOneFunctionCall : Prop :=
  ∀ (s : State) (i : Instr) (es rest : List Event), s.busy = false → acceptable i s.blen = true →
    (∀ e ∈ es, isHostEvent e = true) → s.schedule = .write 0x0008 (encode i) :: (es ++ .engine :: rest) →
    ∃ t u, run (es.length + 2) s = .next t ∧ exec i s = .next u ∧
      t.q = u.q ∧ t.buf = u.buf ∧ t.crc = u.crc ∧ t.cmp = u.cmp ∧ t.blen = s.blen ∧ t.cmdr = encode i ∧
      t.busy = false ∧ t.done = true ∧ t.schedule = rest

/-! ## The host window (`20_memory.md`) -/

/-- The map of the window (R44). -/
def Obligations.WindowMap : Prop :=
  windowTarget 0x0000 = some .ctrl ∧ windowTarget 0x0004 = some .status ∧ windowTarget 0x0008 = some .cmd ∧
  windowTarget 0x000C = some .blen ∧ windowTarget 0x0010 = some .crc ∧ windowTarget 0x0014 = some .errCmd ∧
  (∀ (r : QReg) (j : Fin 4), windowTarget (qOffset r j.val) = some (.qWord r j)) ∧
  (∀ w : Fin 1024, windowTarget (bufOffset w.val) = some (.bufWord w)) ∧
  (∀ off : Offset, windowTarget off = none ↔ badOffset off)

/-- A transaction answers `BusError` exactly at a misaligned or reserved offset, and then changes nothing (R41, R42,
R191). -/
def Obligations.BusErrorExactlyAtBadOffsets : Prop :=
  ∀ (s t : State) (off : Offset) (d : Word) (es : List Event),
    s.schedule = .read off :: es ∨ s.schedule = .write off d :: es → step s = .next t →
    (t.answer = some .busError ↔ badOffset off) ∧
    (badOffset off → t = { s with schedule := es, answer := some .busError } ∧ t.irq = s.irq)

/-- The write lock (R50): while busy, a write to CMD, BLEN, CRC, a Q word or a BUF word changes nothing but `WERR`; CTRL,
STATUS and ERRCMD behave as while idle; a bad offset answers `BusError` and does not set `WERR`. -/
def Obligations.WriteLockWhileBusy : Prop :=
  ∀ (s : State) (off : Offset) (d : Word) (es : List Event), s.busy = true → s.schedule = .write off d :: es →
    (off = 0x0008 ∨ off = 0x000C ∨ off = 0x0010 ∨ dataOffset off →
      step s = .next { s with schedule := es, answer := some .ok, werr := true }) ∧
    (off = 0x0000 ∨ off = 0x0004 ∨ off = 0x0014 →
      ∃ t, step { s with busy := false } = .next t ∧ step s = .next { t with busy := true }) ∧
    (badOffset off → step s = .next { s with schedule := es, answer := some .busError })

/-- Reads while busy (R51): a read of CRC, a Q word or a BUF word answers `OK` with some word and changes nothing of the
block. Which word is a free value (log entry 5): `draws` counts the values drawn. -/
def Obligations.BusyReadsAnswerAnyValue : Prop :=
  ∀ (s : State) (off : Offset) (es : List Event), s.busy = true → s.schedule = .read off :: es →
    off = 0x0010 ∨ dataOffset off →
    ∃ v : Word, step s = .next { s with schedule := es, answer := some (.data v), draws := s.draws + 1 }

/-- A host write of a Q word while idle replaces exactly its four bytes, least significant byte first, and the word reads
back (R45). -/
def Obligations.HostWriteOfAQWord : Prop :=
  ∀ (s : State) (r : QReg) (j : Nat) (d : Word) (es : List Event), j < 4 → s.busy = false →
    s.schedule = .write (qOffset r j) d :: es →
    ∃ t, step s = .next t ∧
      (∀ i, i < 16 → bigByte (t.readQ r) i = if i / 4 = j then byteOf d (i % 4) else bigByte (s.readQ r) i) ∧
      bigWord (t.readQ r) j = d ∧
      OnlyQ r { s with schedule := es, answer := some .ok } t

/-- Host reads of CRC, a Q word and a BUF word while idle are exact and have no effect on the block (R41, R45, R46): a Q word
is `LE32` of its bytes `4j .. 4j+3`, that is, the byte-swapped slice `Q[127-32j : 96-32j]`; a BUF word is `LE32` of its bytes. -/
def Obligations.IdleDataReadsAreExact : Prop :=
  (∀ (s : State) (es : List Event), s.busy = false → s.schedule = .read 0x0010 :: es →
    step s = .next { s with schedule := es, answer := some (.data s.crc) }) ∧
  (∀ (s : State) (r : QReg) (j : Nat) (es : List Event), j < 4 → s.busy = false → s.schedule = .read (qOffset r j) :: es →
    step s = .next { s with schedule := es, answer := some (.data (bswap32 ((s.readQ r).extractLsb' (96 - 32 * j) 32))) }) ∧
  (∀ (v : Big) (j k : Nat), j < 4 → k < 4 → byteOf (bswap32 (v.extractLsb' (96 - 32 * j) 32)) k = bigByte v (4 * j + k)) ∧
  (∀ (s : State) (w : Nat) (es : List Event), w < 1024 → s.busy = false → s.schedule = .read (bufOffset w) :: es →
    ∃ v : Word, step s = .next { s with schedule := es, answer := some (.data v) } ∧
      ∀ k, k < 4 → byteOf v k = memRead s.buf (4 * w + k))

/-- A host write of a BUF word while idle replaces exactly its four bytes, least significant byte first, and reads back
(R46). -/
def Obligations.HostWriteOfABufWord : Prop :=
  ∀ (s : State) (w : Nat) (d : Word) (es : List Event), w < 1024 → s.busy = false → s.buf.wf = true →
    s.schedule = .write (bufOffset w) d :: es →
    ∃ t, step s = .next t ∧
      (∀ a, memRead t.buf a = if 4 * w ≤ a ∧ a < 4 * w + 4 then byteOf d (a - 4 * w) else memRead s.buf a) ∧
      memRead32 t.buf (4 * w) = d ∧ t.buf.wf = true ∧
      t = { s with schedule := es, answer := some .ok, buf := t.buf }

/-! ## Invariants and whole-machine rules -/

/-- The state after reset meets the invariant, and holds the values R211 gives. That no event is
scheduled in it is the model's choice (log entry 1). -/
def Obligations.ResetStateMeetsTheInvariant : Prop :=
  Inv State.reset ∧ ControlReset State.reset ∧ State.reset.irq = false ∧ State.reset.schedule = []

/-- Every step keeps the invariant: R27 (i) to (v) and the canonical form of BUF. -/
def Obligations.EveryStepKeepsTheInvariant : Prop :=
  ∀ s t : State, Inv s → step s = .next t → Inv t

/-- From a state that meets the invariant no step ends in a fault or a refusal: no event stops the engine (R185). -/
def Obligations.NoStepStopsUnderTheInvariant : Prop :=
  ∀ s : State, Inv s → ∃ t, step s = .next t

/-- `CMP` is written by the completion of a BI_CMP and by nothing else but a reset (R23). -/
def Obligations.OnlyBiCmpChangesCmp : Prop :=
  ∀ s t : State, step s = .next t → t.cmp ≠ s.cmp →
    (s.busy = true ∧ t.busy = false ∧ ∃ a b, decode s.cmdr = .ok (.biCmp a b) ∧ t.cmp = cmpCode (s.readQ a) (s.readQ b)) ∨
    (∃ e es, s.schedule = e :: es ∧ isResetEvent e = true)

/-- A Q register changes only as the destination of a completing command, by a host write of one of its words while idle,
as the destination of a command that a reset abandons, or at power-on (R12, R212). -/
def Obligations.WhatCanChangeAQRegister : Prop :=
  ∀ (s t : State) (r : QReg), step s = .next t → t.readQ r ≠ s.readQ r →
    (s.busy = true ∧ (∃ i, decode s.cmdr = .ok i ∧ destQ i = some r) ∧
      (s.schedule = [] ∨ ∃ e es, s.schedule = e :: es ∧ isHostEvent e = false)) ∨
    (s.busy = false ∧ ∃ j d es, j < 4 ∧ s.schedule = .write (qOffset r j) d :: es) ∨
    (∃ es, s.schedule = .powerOn :: es)

/-- A byte of BUF changes only by the completion of a cipher command and below BLEN, by a host write of its word while
idle, by a reset that abandons a cipher command and below BLEN, or at power-on (R14, R136, R212). -/
def Obligations.WhatCanChangeABufByte : Prop :=
  ∀ (s t : State) (a : Nat), step s = .next t → memRead t.buf a ≠ memRead s.buf a →
    (s.busy = true ∧ a < s.blen.toNat ∧ (∃ i, decode s.cmdr = .ok i ∧ writesBuf i = true) ∧
      (s.schedule = [] ∨ ∃ e es, s.schedule = e :: es ∧ isHostEvent e = false)) ∨
    (s.busy = false ∧ a < 4096 ∧ ∃ d es, s.schedule = .write (bufOffset (a / 4)) d :: es) ∨
    (∃ es, s.schedule = .powerOn :: es)

/-- BLEN changes only by a host write while idle or a reset; CRC changes besides only by the completion of CRC_INIT or
CRC_UPD (R15, R16). -/
def Obligations.WhatCanChangeBlenAndCrc : Prop :=
  (∀ s t : State, step s = .next t → t.blen ≠ s.blen →
    (s.busy = false ∧ ∃ es, s.schedule = .write 0x000C t.blen :: es) ∨
    (∃ e es, s.schedule = e :: es ∧ isResetEvent e = true)) ∧
  (∀ s t : State, step s = .next t → t.crc ≠ s.crc →
    (s.busy = true ∧ t.busy = false ∧ (decode s.cmdr = .ok .crcInit ∨ decode s.cmdr = .ok .crcUpd)) ∨
    (s.busy = false ∧ ∃ es, s.schedule = .write 0x0010 t.crc :: es) ∨
    (∃ e es, s.schedule = e :: es ∧ isResetEvent e = true))

/-- `ERR` is sticky and the first error wins (R21, R197): while `ERR` stays set, ERRCODE and ERRCMD keep their values;
`ERR` is cleared only by the host's 1 in bit 2 of STATUS or by a reset; it is set only by a rejected issue. -/
def Obligations.FirstErrorWins : Prop :=
  ∀ s t : State, step s = .next t →
    (s.err = true → t.err = true → t.errCode = s.errCode ∧ t.errCmd = s.errCmd) ∧
    (s.err = true → t.err = false →
      (∃ d es, s.schedule = .write 0x0004 d :: es ∧ d.getLsbD 2 = true) ∨
      (∃ e es, s.schedule = e :: es ∧ isResetEvent e = true)) ∧
    (s.err = false → t.err = true →
      s.busy = false ∧ ∃ w es e, s.schedule = .write 0x0008 w :: es ∧ checkIssue w s.blen = .error e ∧
        t.errCode = CmdError.code e ∧ t.errCmd = w)

/-! ## bigint128_alu (`40_bigint128_alu.md`) -/

/-- BI_ADD completes with the sum modulo `2^128` and changes nothing else: the carry is recorded nowhere (R91). -/
def Obligations.BiAddWritesTheTruncatedSum : Prop :=
  ∀ (d a b : QReg) (s : State), ∃ t, exec (.biAdd d a b) s = .next t ∧
    (t.readQ d).toNat = ((s.readQ a).toNat + (s.readQ b).toNat) % 2 ^ 128 ∧ OnlyQ d s t

/-- BI_SHL1 and BI_SHR1 complete with twice the value modulo `2^128` and with half of it rounded down, and change nothing
else (R92): every bit moves one place and a zero enters. -/
def Obligations.ShiftsByOne : Prop :=
  (∀ (d a : QReg) (s : State), ∃ t, exec (.biShl1 d a) s = .next t ∧
    (t.readQ d).toNat = (2 * (s.readQ a).toNat) % 2 ^ 128 ∧
    (∀ i, i < 127 → (t.readQ d).getLsbD (i + 1) = (s.readQ a).getLsbD i) ∧ (t.readQ d).getLsbD 0 = false ∧ OnlyQ d s t) ∧
  (∀ (d a : QReg) (s : State), ∃ t, exec (.biShr1 d a) s = .next t ∧
    (t.readQ d).toNat = (s.readQ a).toNat / 2 ∧
    (∀ i, i < 127 → (t.readQ d).getLsbD i = (s.readQ a).getLsbD (i + 1)) ∧ (t.readQ d).getLsbD 127 = false ∧ OnlyQ d s t)

/-- BI_CMP completes, writes `CMP` with the unsigned order of its operands, and changes nothing else (R93, R98). -/
def Obligations.BiCmpWritesTheUnsignedOrder : Prop :=
  ∀ (a b : QReg) (s : State), ∃ t, exec (.biCmp a b) s = .next t ∧
    ((s.readQ a).toNat = (s.readQ b).toNat → t.cmp = 0b00) ∧
    ((s.readQ a).toNat > (s.readQ b).toNat → t.cmp = 0b01) ∧
    ((s.readQ a).toNat < (s.readQ b).toNat → t.cmp = 0b10) ∧
    t = { s with cmp := t.cmp } ∧ (∀ r, t.readQ r = s.readQ r) ∧ ∀ k, memRead t.buf k = memRead s.buf k

/-- The unsigned order is the lexicographic order of the big-endian bytes (R93): the first byte that differs decides. -/
def Obligations.OrderIsLexicographicOnBytes : Prop :=
  ∀ a b : Big, a.toNat < b.toNat ↔
    ∃ i, i < 16 ∧ (∀ j, j < i → bigByte a j = bigByte b j) ∧ (bigByte a i).toNat < (bigByte b i).toNat

/-- BI_FIX completes with one subtraction, made only if the value is strictly above the modulus, and changes nothing
else (R94). -/
def Obligations.BiFixSubtractsOnceIfStrictlyAbove : Prop :=
  ∀ (d a m : QReg) (s : State), ∃ t, exec (.biFix d a m) s = .next t ∧
    ((s.readQ a).toNat > (s.readQ m).toNat → (t.readQ d).toNat = (s.readQ a).toNat - (s.readQ m).toNat) ∧
    ((s.readQ a).toNat ≤ (s.readQ m).toNat → t.readQ d = s.readQ a) ∧
    ((s.readQ m).toNat = 0 → t.readQ d = s.readQ a) ∧
    ((s.readQ a).toNat > 2 * (s.readQ m).toNat → (t.readQ d).toNat > (s.readQ m).toNat) ∧
    OnlyQ d s t

/-! ## modexp_engine (`41_modexp_engine.md`) -/

/-- MX_MULMOD and MX_MODEXP complete on all operands, write the value of their step lists, and change nothing else: base,
exponent and modulus keep their values (R120). -/
def Obligations.ModularCommandsWriteOnlyTheirDestination : Prop :=
  (∀ (d a b m : QReg) (s : State), ∃ t, exec (.mxMulmod d a b m) s = .next t ∧
    t.readQ d = mulMod (s.readQ a) (s.readQ b) (s.readQ m) ∧ OnlyQ d s t) ∧
  (∀ (d g e m : QReg) (s : State), ∃ t, exec (.mxModexp d g e m) s = .next t ∧
    t.readQ d = modExp (s.readQ g) (s.readQ e) (s.readQ m) ∧ OnlyQ d s t)

/-- The step lists of `MulMod` and `ModExp` (R110, R111), for every operand, as sequences: any numbers that start and go
on as the lists say, bit `k` of the scanned operand deciding iteration `k`, end after 128 iterations in the result. -/
def Obligations.StepListsOfTheModularFunctions : Prop :=
  (∀ (a b m : Big) (acc t2 : Nat → Nat), acc 0 = 0 → t2 0 = b.toNat →
    (∀ k, acc (k + 1) = if a.getLsbD k then fixNat ((acc k + t2 k) % 2 ^ 128) m.toNat else acc k) →
    (∀ k, t2 (k + 1) = fixNat (2 * t2 k % 2 ^ 128) m.toNat) →
    (mulMod a b m).toNat = acc 128) ∧
  (∀ (g e m : Big) (out base : Nat → Big), out 0 = 1 → base 0 = g →
    (∀ k, out (k + 1) = if e.getLsbD k then mulMod (out k) (base k) m else out k) →
    (∀ k, base (k + 1) = mulMod (base k) (base k) m) →
    modExp g e m = out 128)

/-- Properties of `MulMod` (R114): with `1 <= m < 2^127` and `b <= m` nothing is truncated, the result is at most `m` and
congruent to the product; it is the residue unless that is 0, when it is 0 or `m`. -/
def Obligations.MulModIsTheProductWithinBounds : Prop :=
  ∀ a b m : Big, 1 ≤ m.toNat → m.toNat < 2 ^ 127 → b.toNat ≤ m.toNat →
    (mulMod a b m).toNat ≤ m.toNat ∧
    (mulMod a b m).toNat % m.toNat = a.toNat * b.toNat % m.toNat ∧
    (a.toNat * b.toNat % m.toNat ≠ 0 → (mulMod a b m).toNat = a.toNat * b.toNat % m.toNat) ∧
    (a.toNat * b.toNat % m.toNat = 0 → mulMod a b m = 0 ∨ mulMod a b m = m) ∧
    (∀ k, k < 128 → (mulLoop m k ⟨a, b, 0⟩).acc.toNat + (mulLoop m k ⟨a, b, 0⟩).t2.toNat < 2 ^ 128 ∧
      2 * (mulLoop m k ⟨a, b, 0⟩).t2.toNat < 2 ^ 128)

/-- Properties of `ModExp` (R115): with `1 <= m < 2^127` and `g <= m` every running value stays at most `m` and the result
is congruent to the power; for a prime `m` and `1 <= g < m` the result is the residue and never 0. -/
def Obligations.ModExpIsThePowerWithinBounds : Prop :=
  ∀ g e m : Big, 1 ≤ m.toNat → m.toNat < 2 ^ 127 → g.toNat ≤ m.toNat →
    (modExp g e m).toNat ≤ m.toNat ∧
    (modExp g e m).toNat % m.toNat = g.toNat ^ e.toNat % m.toNat ∧
    (∀ k, k ≤ 128 → (expLoop m k ⟨g, e, 1⟩).out.toNat ≤ m.toNat ∧ (expLoop m k ⟨g, e, 1⟩).g.toNat ≤ m.toNat) ∧
    (m.toNat.Prime → 1 ≤ g.toNat → g.toNat ≤ m.toNat - 1 →
      (modExp g e m).toNat = g.toNat ^ e.toNat % m.toNat ∧ 1 ≤ (modExp g e m).toNat ∧
      (modExp g e m).toNat ≤ m.toNat - 1 ∧
      ∀ k, k ≤ 128 → 1 ≤ (expLoop m k ⟨g, e, 1⟩).out.toNat ∧ (expLoop m k ⟨g, e, 1⟩).out.toNat ≤ m.toNat - 1 ∧
        1 ≤ (expLoop m k ⟨g, e, 1⟩).g.toNat ∧ (expLoop m k ⟨g, e, 1⟩).g.toNat ≤ m.toNat - 1)

/-- Zero modulus (R116): the commands complete with the product and the power modulo `2^128`. -/
def Obligations.ZeroModulusIsPlainArithmetic : Prop :=
  (∀ a b : Big, (mulMod a b 0).toNat = a.toNat * b.toNat % 2 ^ 128) ∧
  (∀ g e : Big, (modExp g e 0).toNat = g.toNat ^ e.toNat % 2 ^ 128) ∧
  (∀ x : Big, fix x 0 = x) ∧
  (∀ (d a b m : QReg) (s : State), s.readQ m = 0 →
    (∃ t, exec (.mxMulmod d a b m) s = .next t ∧
      (t.readQ d).toNat = (s.readQ a).toNat * (s.readQ b).toNat % 2 ^ 128) ∧
    (∃ t, exec (.mxModexp d a b m) s = .next t ∧
      (t.readQ d).toNat = (s.readQ a).toNat ^ (s.readQ b).toNat % 2 ^ 128))

/-- The corner cases of MX_MODEXP (R113), for every modulus unless a bound is said: exponent 0 gives 1; exponent 1 gives
`Fix(g, m)`; base 0 with a nonzero exponent gives 0; base `m` with `1 <= m < 2^127` gives `m`. -/
def Obligations.ModExpCornerCases : Prop :=
  (∀ g m : Big, modExp g 0 m = 1) ∧
  (∀ g m : Big, modExp g 1 m = fix g m) ∧
  (∀ e m : Big, e ≠ 0 → modExp 0 e m = 0) ∧
  (∀ e m : Big, e ≠ 0 → 1 ≤ m.toNat → m.toNat < 2 ^ 127 → modExp m e m = m)

/-! ## block_cipher_core (`42_block_cipher_core.md`) -/

/-- The inverse property of the block (R134), in both orders, for every key. -/
def Obligations.BlockFunctionsAreInverse : Prop :=
  ∀ (k : Key) (y z : Word),
    decBlock k (encBlock k y z).1 (encBlock k y z).2 = (y, z) ∧ encBlock k (decBlock k y z).1 (decBlock k y z).2 = (y, z)

/-- The round lists of `EncBlock` and `DecBlock` (R131, R132, R133) as sequences: words that start and go on as the lists say
end after 32 rounds in the result. With all key words 0 and `y = z = 0` that is the vector of R142. -/
def Obligations.BlockFunctionsFollowTheRoundLists : Prop :=
  (∀ (k : Key) (sum y z : Nat → Word), sum 0 = 0 → (∀ i, sum (i + 1) = sum i + 0x9E3779B9) →
    (∀ i, y (i + 1) = y i + (((z i <<< 4) + k.a) ^^^ (z i + sum (i + 1)) ^^^ ((z i >>> 5) + k.b))) →
    (∀ i, z (i + 1) = z i + (((y (i + 1) <<< 4) + k.c) ^^^ (y (i + 1) + sum (i + 1)) ^^^ ((y (i + 1) >>> 5) + k.d))) →
    encBlock k (y 0) (z 0) = (y 32, z 32)) ∧
  (∀ (k : Key) (sum y z : Nat → Word), sum 0 = 0xC6EF3720 → (∀ i, sum (i + 1) = sum i - 0x9E3779B9) →
    (∀ i, z (i + 1) = z i - (((y i <<< 4) + k.c) ^^^ (y i + sum i) ^^^ ((y i >>> 5) + k.d))) →
    (∀ i, y (i + 1) = y i - (((z (i + 1) <<< 4) + k.a) ^^^ (z (i + 1) + sum i) ^^^ ((z (i + 1) >>> 5) + k.b))) →
    decBlock k (y 0) (z 0) = (y 32, z 32)) ∧
  encBlock ⟨0, 0, 0, 0⟩ 0 0 = (0x41EA3A0A, 0x94BAA940)

/-- The key words of a register (R130): `a`, `b`, `c`, `d` are its sixteen bytes in order, four to a word, the first byte of
each the least significant. -/
def Obligations.KeyWordsOfARegister : Prop :=
  (∀ v : Big, ∀ k, k < 4 →
    byteOf (keyWords v).a k = bigByte v k ∧ byteOf (keyWords v).b k = bigByte v (4 + k) ∧
    byteOf (keyWords v).c k = bigByte v (8 + k) ∧ byteOf (keyWords v).d k = bigByte v (12 + k)) ∧
  keyWords 0x000102030405060708090A0B0C0D0E0F = ⟨0x03020100, 0x07060504, 0x0B0A0908, 0x0F0E0D0C⟩ ∧
  keyWords 0xD601 = ⟨0, 0, 0, 0x01D60000⟩

/-- BC_ENC completes for every accepted length, writes only `BUF[0..BLEN-1]`, and the bytes are as R137 and R140 say: there
is the memory `m` after the whole blocks, in which each block is the encrypted block of before and every byte at or
above them is as before; the result is `m` if the length is a multiple of 8, and else `m` with the block at `BLEN - 8`
encrypted once more. -/
def Obligations.BcEncEncryptsBlocksThenTail : Prop :=
  ∀ (k : QReg) (s : State), s.buf.wf = true →
    s.blen.toNat = 0 ∨ (8 ≤ s.blen.toNat ∧ s.blen.toNat ≤ 4096) →
    ∃ t m, exec (.bcEnc k) s = .next t ∧ OnlyBufBelowBlen s t ∧
      (∀ i, i < s.blen.toNat / 8 → BlockIs (encBlock (keyWords (s.readQ k))) (8 * i) s.buf m) ∧
      (∀ a, 8 * (s.blen.toNat / 8) ≤ a → memRead m a = memRead s.buf a) ∧
      (s.blen.toNat % 8 = 0 → ∀ a, memRead t.buf a = memRead m a) ∧
      (s.blen.toNat % 8 ≠ 0 →
        BlockIs (encBlock (keyWords (s.readQ k))) (s.blen.toNat - 8) m t.buf ∧
        ∀ a, a < s.blen.toNat - 8 ∨ s.blen.toNat ≤ a → memRead t.buf a = memRead m a)

/-- BC_DEC completes for every accepted length, writes only `BUF[0..BLEN-1]`, and the bytes are as R138 says: first the
block at `BLEN - 8` is decrypted if the length is no multiple of 8, then each whole block. -/
def Obligations.BcDecDecryptsTailThenBlocks : Prop :=
  ∀ (k : QReg) (s : State), s.buf.wf = true →
    s.blen.toNat = 0 ∨ (8 ≤ s.blen.toNat ∧ s.blen.toNat ≤ 4096) →
    ∃ t m, exec (.bcDec k) s = .next t ∧ OnlyBufBelowBlen s t ∧
      (s.blen.toNat % 8 = 0 → ∀ a, memRead m a = memRead s.buf a) ∧
      (s.blen.toNat % 8 ≠ 0 →
        BlockIs (decBlock (keyWords (s.readQ k))) (s.blen.toNat - 8) s.buf m ∧
        ∀ a, a < s.blen.toNat - 8 ∨ s.blen.toNat ≤ a → memRead m a = memRead s.buf a) ∧
      (∀ i, i < s.blen.toNat / 8 → BlockIs (decBlock (keyWords (s.readQ k))) (8 * i) m t.buf) ∧
      (∀ a, 8 * (s.blen.toNat / 8) ≤ a → memRead t.buf a = memRead m a)

/-- Buffer round trip (R139), tail included: BC_ENC then BC_DEC with the same key and BLEN restores the whole state, and so
does BC_DEC then BC_ENC. -/
def Obligations.CipherRoundTrip : Prop :=
  ∀ (k : QReg) (s : State), s.buf.wf = true →
    s.blen.toNat = 0 ∨ (8 ≤ s.blen.toNat ∧ s.blen.toNat ≤ 4096) →
    (∃ t, exec (.bcEnc k) s = .next t ∧ exec (.bcDec k) t = .next s) ∧
    (∃ t, exec (.bcDec k) s = .next t ∧ exec (.bcEnc k) t = .next s)

/-- The model's stop, not a rule of the spec (log entry 7): performed with a length its issue would have rejected, a buffer
command faults; and a held word that is no command faults. Wherever the engine's turn faults, the state does not meet the
invariant. -/
def Obligations.TheModelsTwoStopsLieOutsideTheInvariant : Prop :=
  (∀ (k : QReg) (s : State), ¬ (s.blen.toNat = 0 ∨ (8 ≤ s.blen.toNat ∧ s.blen.toNat ≤ 4096)) →
    exec (.bcEnc k) s = .fault .bufferLengthOutOfRange ∧ exec (.bcDec k) s = .fault .bufferLengthOutOfRange) ∧
  (∀ s : State, 4096 < s.blen.toNat → exec .crcUpd s = .fault .bufferLengthOutOfRange) ∧
  (∀ (s : State) (e : CmdError), s.busy = true → decode s.cmdr = .error e → engineTurn s = .fault .heldWordNotACommand) ∧
  (∀ (s : State) (f : Fault), engineTurn s = .fault f → ¬ Inv s)

/-- The bytes of BUF at or above BLEN matter to no command (R46): two states that differ only in them complete alike, and
agree afterwards on everything but those bytes. -/
def Obligations.BytesFromBlenOnMatterToNoCommand : Prop :=
  ∀ (i : Instr) (s : State) (m : Memory), s.buf.wf = true → m.wf = true →
    (∀ a, a < s.blen.toNat → memRead m a = memRead s.buf a) → ∀ t, exec i s = .next t →
    ∃ t', exec i (s.setBuf m) = .next t' ∧ t'.setBuf t.buf = t ∧
      (∀ a, a < s.blen.toNat → memRead t'.buf a = memRead t.buf a) ∧
      (∀ a, s.blen.toNat ≤ a → memRead t'.buf a = memRead m a)

/-! ## crc32_generator (`43_crc32_generator.md`) -/

/-- CRC_INIT completes with `CRC = 0xFFFFFFFF` and changes nothing else (R152). -/
def Obligations.CrcInitLoadsAllOnes : Prop :=
  ∀ s : State, ∃ t, exec .crcInit s = .next t ∧ t = { s with crc := 0xFFFFFFFF } ∧
    (∀ r, t.readQ r = s.readQ r) ∧ ∀ a, memRead t.buf a = memRead s.buf a

/-- CRC_UPD completes for every length up to 4096, folds `BUF[0..BLEN-1]` into CRC first byte first, from the current CRC and
with nothing applied afterwards, and changes nothing else (R153). -/
def Obligations.CrcUpdFoldsTheBuffer : Prop :=
  ∀ s : State, s.blen.toNat ≤ 4096 → ∃ t, exec .crcUpd s = .next t ∧
    t.crc = ((List.range s.blen.toNat).map fun k => memRead s.buf k).foldl crcByte s.crc ∧
    t = { s with crc := t.crc } ∧ (∀ r, t.readQ r = s.readQ r) ∧ ∀ a, memRead t.buf a = memRead s.buf a

/-- `CrcUpdate` folds a byte sequence, first byte first, and a long span can be processed in pieces (R151). -/
def Obligations.CrcInPieces : Prop :=
  (∀ c : Word, crcUpdate c [] = c) ∧ (∀ (c : Word) (x : Byte) (xs : List Byte), crcUpdate c (x :: xs) = crcUpdate (crcByte c x) xs) ∧
  ∀ (c : Word) (xs ys : List Byte), crcUpdate c (xs ++ ys) = crcUpdate (crcUpdate c xs) ys

/-- The check values of R155. -/
def Obligations.CrcCheckValues : Prop :=
  crcUpdate 0xFFFFFFFF [] = 0xFFFFFFFF ∧
  crcUpdate 0xFFFFFFFF [0x31, 0x32, 0x33, 0x34, 0x35, 0x36, 0x37, 0x38, 0x39] = 0x340BC6D9 ∧
  crcUpdate 0xFFFFFFFF [0x00] = 0x2DFD1072 ∧ crcUpdate 0xFFFFFFFF [0x61] = 0x174841BC ∧
  crcUpdate 0xFFFFFFFF [0xFF] = 0x00FFFFFF ∧ crcUpdate 0xFFFFFFFF [0x00, 0x00, 0x00, 0x00] = 0xDEBB20E3 ∧
  crcUpdate 0xFFFFFFFF [0x31, 0x32, 0x33, 0x34] = 0x641C1F5C ∧
  crcUpdate 0x641C1F5C [0x35, 0x36, 0x37, 0x38, 0x39] = 0x340BC6D9

/-- `CrcByte` (R150): the byte enters at bits 7:0 and eight bit steps follow, as a sequence; and the table-driven form,
`T[(crc XOR x) AND 0xFF] XOR (crc >> 8)` with `T[i] = CrcByte(i, 0)`, gives the same values. -/
def Obligations.CrcByteIsEightBitStepsAndTableDriven : Prop :=
  (∀ (c : Word) (x : Byte) (v : Nat → Word), v 0 = c ^^^ x.setWidth 32 →
    (∀ i, v (i + 1) = if (v i).getLsbD 0 then (v i >>> 1) ^^^ 0xEDB88320 else v i >>> 1) → crcByte c x = v 8) ∧
  ∀ (c : Word) (x : Byte), crcByte c x = crcByte ((c ^^^ x.setWidth 32) &&& 0xFF) 0x00 ^^^ (c >>> 8)

/-- Data followed by its own register, least significant byte first, leaves 0 (`95_test_vectors.md` section 3.4, after
vector K18). -/
def Obligations.CrcOverItsOwnRegisterIsZero : Prop :=
  ∀ (c : Word) (xs : List Byte),
    crcUpdate c (xs ++ [byteOf (crcUpdate c xs) 0, byteOf (crcUpdate c xs) 1, byteOf (crcUpdate c xs) 2,
      byteOf (crcUpdate c xs) 3]) = 0

/-! ## Reset (`70_reset_and_hazards.md`) -/

/-- Reset and power-on put every control and status field at its reset value and the engine in the idle state, from any
state (R210, R211). -/
def Obligations.ResetPutsControlAtResetValues : Prop :=
  ∀ (s : State) (e : Event) (es : List Event), isResetEvent e = true → s.schedule = e :: es →
    ∃ t, step s = .next t ∧ ControlReset t ∧ t.irq = false ∧ t.schedule = es

/-- What a reset leaves of Q and BUF (R212): everything while idle; while busy, everything but the destination of the
abandoned command: its register, or the bytes of BUF below BLEN. -/
def Obligations.ResetKeepsAllButTheAbandonedDestination : Prop :=
  ∀ (s : State) (es : List Event), s.schedule = .reset :: es →
    ∃ t, step s = .next t ∧ t.busy = false ∧ t.done = false ∧
      (s.busy = false → t.q = s.q ∧ t.buf = s.buf) ∧
      (s.busy = true → ∀ i, decode s.cmdr = .ok i →
        (∀ r, destQ i ≠ some r → t.readQ r = s.readQ r) ∧
        (writesBuf i = false → t.buf = s.buf) ∧
        (∀ a, s.blen.toNat ≤ a → memRead t.buf a = memRead s.buf a))
end

