-- ==== Sys2Proof/Laws/Memory.lean ====
section
/-! SUPPORT. The laws of BUF: read after write, frames, the canonical form. -/

namespace Sys2Proof.Machine

/-- The canonical form, spelled out. -/
theorem Memory.wf_iff (m : Memory) :
    m.wf = true ↔ m.Pairwise (fun c d => c.1 < d.1) ∧
      ∀ c ∈ m, c.1 < Config.bufBytes ∧ c.2 ≠ Config.unlistedByte := by
  simp [Memory.wf, List.all_eq_true]

@[simp] theorem memory_nil_wf : Memory.wf [] = true := by decide

/-- A memory whose indexes all lie above `a` does not list `a`. -/
theorem memRead_of_forall_lt {m : Memory} {a : Nat} (h : ∀ c ∈ m, a < c.1) : memRead m a = Config.unlistedByte := by
  induction m with
  | nil => rfl
  | cons c cs ih =>
    have hc := h c (by simp)
    simp only [memRead]
    rw [if_neg (by omega)]
    exact ih fun d hd => h d (by simp [hd])

/-- A write leaves every other byte alone; no premise. -/
theorem memRead_memWrite_ne (m : Memory) {a b : Nat} (v : Byte) (h : b ≠ a) : memRead (memWrite m a v) b = memRead m b := by
  induction m with
  | nil =>
    simp only [memWrite]
    split
    · rfl
    · simp [memRead, Ne.symm h]
  | cons c cs ih =>
    simp only [memWrite]
    split
    · split
      · rfl
      · simp [memRead, Ne.symm h]
    · split
      · have hc : c.1 ≠ b := by omega
        split
        · simp [memRead, hc]
        · simp [memRead, hc, Ne.symm h]
      · simp only [memRead, ih]

/-- Read after write of the same byte, in a memory with rising indexes. -/
theorem memRead_memWrite_same {m : Memory} (hm : m.Pairwise fun c d => c.1 < d.1) (a : Nat) (v : Byte) :
    memRead (memWrite m a v) a = v := by
  induction m with
  | nil =>
    simp only [memWrite]
    split
    · simp_all [memRead]
    · simp [memRead]
  | cons c cs ih =>
    obtain ⟨hc, hcs⟩ := List.pairwise_cons.1 hm
    simp only [memWrite]
    split
    · rename_i hlt
      split
      · rename_i hv
        rw [hv]
        refine memRead_of_forall_lt fun d hd => ?_
        rcases List.mem_cons.1 hd with rfl | hd
        · exact hlt
        · exact Nat.lt_trans hlt (hc d hd)
      · simp [memRead]
    · split
      · rename_i hlt heq
        split
        · rename_i hv
          rw [hv]
          exact memRead_of_forall_lt fun d hd => heq ▸ hc d hd
        · simp [memRead]
      · rename_i hlt hne
        simp only [memRead]
        rw [if_neg (fun h => hne h.symm)]
        exact ih hcs

/-- Every cell of a written memory is the written one or an old one. -/
theorem mem_memWrite {m : Memory} {a : Nat} {v : Byte} {c : Host.Cell} (h : c ∈ memWrite m a v) :
    (c = (a, v) ∧ v ≠ Config.unlistedByte) ∨ c ∈ m := by
  induction m with
  | nil =>
    simp only [memWrite] at h
    split at h <;> simp_all
  | cons d ds ih =>
    simp only [memWrite] at h
    split at h
    · split at h
      · exact .inr h
      · rename_i hv
        rcases List.mem_cons.1 h with rfl | h
        · exact .inl ⟨rfl, hv⟩
        · exact .inr h
    · split at h
      · split at h
        · exact .inr (List.mem_cons_of_mem _ h)
        · rename_i hv
          rcases List.mem_cons.1 h with rfl | h
          · exact .inl ⟨rfl, hv⟩
          · exact .inr (List.mem_cons_of_mem _ h)
      · rcases List.mem_cons.1 h with rfl | h
        · exact .inr (by simp)
        · exact (ih h).imp id (List.mem_cons_of_mem _)

/-- A write keeps the indexes rising. -/
theorem memWrite_pairwise {m : Memory} (hm : m.Pairwise fun c d => c.1 < d.1) (a : Nat) (v : Byte) :
    (memWrite m a v).Pairwise fun c d => c.1 < d.1 := by
  induction m with
  | nil => simp only [memWrite]; split <;> simp
  | cons c cs ih =>
    obtain ⟨hc, hcs⟩ := List.pairwise_cons.1 hm
    simp only [memWrite]
    split
    · rename_i hlt
      split
      · exact hm
      · refine List.pairwise_cons.2 ⟨fun d hd => ?_, hm⟩
        rcases List.mem_cons.1 hd with rfl | hd
        · exact hlt
        · exact Nat.lt_trans hlt (hc d hd)
    · split
      · rename_i heq
        split
        · exact hcs
        · exact List.pairwise_cons.2 ⟨fun d hd => heq ▸ hc d hd, hcs⟩
      · rename_i hlt hne
        refine List.pairwise_cons.2 ⟨fun d hd => ?_, ih hcs⟩
        rcases mem_memWrite hd with ⟨rfl, -⟩ | hd
        · show c.1 < a
          omega
        · exact hc d hd

/-- A write to a byte of BUF keeps the canonical form. -/
theorem memWrite_wf {m : Memory} (hm : m.wf = true) {a : Nat} (ha : a < Config.bufBytes) (v : Byte) :
    (memWrite m a v).wf = true := by
  rw [Memory.wf_iff] at hm ⊢
  refine ⟨memWrite_pairwise hm.1 a v, fun c hc => ?_⟩
  rcases mem_memWrite hc with ⟨rfl, hv⟩ | hc
  · exact ⟨ha, hv⟩
  · exact hm.2 c hc

/-- Read after write, both cases, in a memory in canonical form. -/
theorem memRead_memWrite {m : Memory} (hm : m.wf = true) (a b : Nat) (v : Byte) :
    memRead (memWrite m a v) b = if b = a then v else memRead m b := by
  split
  · rename_i h; subst h
    exact memRead_memWrite_same ((Memory.wf_iff m).1 hm).1 _ _
  · exact memRead_memWrite_ne m v ‹_›

/-- Two memories in canonical form with the same bytes are the same data. -/
theorem memory_ext {m n : Memory} (hm : m.wf = true) (hn : n.wf = true) (h : ∀ a, memRead m a = memRead n a) : m = n := by
  rw [Memory.wf_iff] at hm hn
  induction m generalizing n with
  | nil =>
    cases n with
    | nil => rfl
    | cons d ds =>
      have := h d.1
      simp only [memRead, if_true] at this
      exact absurd this.symm (hn.2 d (by simp)).2
  | cons c cs ih =>
    cases n with
    | nil =>
      have := h c.1
      simp only [memRead, if_true] at this
      exact absurd this (hm.2 c (by simp)).2
    | cons d ds =>
      obtain ⟨hc, hcs⟩ := List.pairwise_cons.1 hm.1
      obtain ⟨hd, hds⟩ := List.pairwise_cons.1 hn.1
      have hcd : c.1 = d.1 := by
        rcases Nat.lt_trichotomy c.1 d.1 with hlt | heq | hgt
        · have h1 := h c.1
          rw [memRead_of_forall_lt (m := d :: ds) (fun e he => by
            rcases List.mem_cons.1 he with rfl | he
            · exact hlt
            · exact Nat.lt_trans hlt (hd e he))] at h1
          simp only [memRead, if_true] at h1
          exact absurd h1 (hm.2 c (by simp)).2
        · exact heq
        · have h1 := h d.1
          rw [memRead_of_forall_lt (m := c :: cs) (fun e he => by
            rcases List.mem_cons.1 he with rfl | he
            · exact hgt
            · exact Nat.lt_trans hgt (hc e he))] at h1
          simp only [memRead, if_true] at h1
          exact absurd h1.symm (hn.2 d (by simp)).2
      have hv : c.2 = d.2 := by
        have h1 := h c.1
        simp only [memRead, if_true] at h1
        rw [if_pos hcd.symm] at h1
        exact h1
      have htail : cs = ds := by
        refine ih ⟨hcs, fun e he => hm.2 e (List.mem_cons_of_mem _ he)⟩
          ⟨hds, fun e he => hn.2 e (List.mem_cons_of_mem _ he)⟩ (fun a => ?_)
        by_cases ha : a = c.1
        · rw [memRead_of_forall_lt (fun e he => ha ▸ hc e he), memRead_of_forall_lt (fun e he => (ha.trans hcd) ▸ hd e he)]
        · have h1 := h a
          simp only [memRead] at h1
          rwa [if_neg (fun h => ha h.symm), if_neg (fun h => ha (hcd.trans h).symm)] at h1
      rw [htail, Prod.ext hcd hv]

/-! Words. -/

/-- The bits of `LE32`. -/
theorem getLsbD_le32 (b0 b1 b2 b3 : Byte) (i : Nat) :
    (le32 b0 b1 b2 b3).getLsbD i =
      (if i < 8 then b0.getLsbD i else if i < 16 then b1.getLsbD (i - 8) else if i < 24 then b2.getLsbD (i - 16)
        else if i < 32 then b3.getLsbD (i - 24) else false) := by
  simp only [le32, BitVec.getLsbD_or, BitVec.getLsbD_shiftLeft, BitVec.getLsbD_setWidth]
  repeat' split
  all_goals simp (disch := omega) [decide_eq_true, decide_eq_false]

/-- The bits of a word's byte. -/
theorem getLsbD_byteOf (w : Word) (k i : Nat) : (byteOf w k).getLsbD i = (decide (i < 8) && w.getLsbD (8 * k + i)) := by
  simp [byteOf, BitVec.getLsbD_extractLsb']

/-- The bytes of a word, in order, make the word. -/
theorem le32_byteOf (w : Word) : le32 (byteOf w 0) (byteOf w 1) (byteOf w 2) (byteOf w 3) = w := by
  refine BitVec.eq_of_getLsbD_eq fun i hi => ?_
  rw [getLsbD_le32]
  simp only [getLsbD_byteOf]
  repeat' split
  all_goals
    simp (disch := omega) only [decide_eq_true, Bool.true_and, Nat.mul_zero, Nat.zero_add]
    try exact congrArg w.getLsbD (by omega)

/-- The bytes of `LE32`. -/
theorem byteOf_le32 (b0 b1 b2 b3 : Byte) :
    byteOf (le32 b0 b1 b2 b3) 0 = b0 ∧ byteOf (le32 b0 b1 b2 b3) 1 = b1 ∧
    byteOf (le32 b0 b1 b2 b3) 2 = b2 ∧ byteOf (le32 b0 b1 b2 b3) 3 = b3 := by
  refine ⟨?_, ?_, ?_, ?_⟩ <;>
  · refine BitVec.eq_of_getLsbD_eq fun i hi => ?_
    rw [getLsbD_byteOf, getLsbD_le32]
    simp only [hi, decide_true, Bool.true_and]
    repeat' split
    all_goals first
      | omega
      | (congr 1; omega)

/-- A word write is its four byte writes (R46). -/
theorem memRead_memWrite32 {m : Memory} (hm : m.wf = true) {a : Nat} (ha : a + 3 < Config.bufBytes) (w : Word) (b : Nat) :
    memRead (memWrite32 m a w) b =
      if b = a then byteOf w 0 else if b = a + 1 then byteOf w 1 else if b = a + 2 then byteOf w 2
      else if b = a + 3 then byteOf w 3 else memRead m b := by
  have h0 := memWrite_wf hm (a := a) (by omega) (byteOf w 0)
  have h1 := memWrite_wf h0 (a := a + 1) (by omega) (byteOf w 1)
  have h2 := memWrite_wf h1 (a := a + 2) (by omega) (byteOf w 2)
  simp only [memWrite32, memRead_memWrite h2, memRead_memWrite h1, memRead_memWrite h0, memRead_memWrite hm]
  repeat' split
  all_goals first | rfl | omega

/-- A word write leaves every other byte alone; no premise. -/
theorem memRead_memWrite32_ne (m : Memory) {a b : Nat} (w : Word) (h : b < a ∨ a + 4 ≤ b) :
    memRead (memWrite32 m a w) b = memRead m b := by
  simp only [memWrite32]
  repeat rw [memRead_memWrite_ne _ _ (by omega)]

/-- A word write inside BUF keeps the canonical form. -/
theorem memWrite32_wf {m : Memory} (hm : m.wf = true) {a : Nat} (ha : a + 3 < Config.bufBytes) (w : Word) :
    (memWrite32 m a w).wf = true :=
  memWrite_wf (memWrite_wf (memWrite_wf (memWrite_wf hm (by omega) _) (by omega) _) (by omega) _) (by omega) _

/-- A word reads back as written. -/
theorem memRead32_memWrite32_same {m : Memory} (hm : m.wf = true) {a : Nat} (ha : a + 3 < Config.bufBytes) (w : Word) :
    memRead32 (memWrite32 m a w) a = w := by
  simp only [memRead32, memRead_memWrite32 hm ha]
  simp only [if_true, Nat.add_left_cancel_iff, Nat.left_eq_add, Nat.add_eq_left]
  simpa using le32_byteOf w

/-- A word reads as before where a word write does not touch it. -/
theorem memRead32_memWrite32_ne (m : Memory) {a b : Nat} (w : Word) (h : b + 4 ≤ a ∨ a + 4 ≤ b) :
    memRead32 (memWrite32 m a w) b = memRead32 m b := by
  simp only [memRead32]
  repeat rw [memRead_memWrite32_ne _ _ (by omega)]

/-- Two memories that agree on four bytes hold the same word there. -/
theorem memRead32_congr {m n : Memory} {a : Nat} (h : ∀ k, k < 4 → memRead m (a + k) = memRead n (a + k)) :
    memRead32 m a = memRead32 n a := by
  change le32 (memRead m (a + 0)) _ _ _ = le32 (memRead n (a + 0)) _ _ _
  simp (disch := decide) only [h]

/-! Ranges. -/

/-- Filling keeps the canonical form. -/
theorem memFill_wf {m : Memory} (hm : m.wf = true) (f : Nat → Byte) {n : Nat} (hn : n ≤ Config.bufBytes) :
    (memFill f n m).wf = true := by
  induction n with
  | zero => exact hm
  | succ n ih => exact memWrite_wf (ih (by omega)) (by omega) _

/-- Filling leaves every byte outside its range alone. -/
theorem memRead_memFill_ge (m : Memory) (f : Nat → Byte) {n b : Nat} (h : n ≤ b) : memRead (memFill f n m) b = memRead m b := by
  induction n with
  | zero => rfl
  | succ n ih => simp only [memFill]; rw [memRead_memWrite_ne _ _ (by omega), ih (by omega)]

/-- The bytes of a range, by index. -/
theorem memBytes_eq_map (m : Memory) (a n : Nat) : memBytes m a n = (List.range n).map fun k => memRead m (a + k) := by
  induction n generalizing a with
  | zero => rfl
  | succ n ih =>
    rw [memBytes, ih, List.range_succ_eq_map]
    simp only [List.map_cons, List.map_map, Nat.add_zero, List.cons.injEq, true_and]
    refine List.map_congr_left fun k _ => ?_
    simp only [Function.comp, Nat.succ_eq_add_one]
    congr 1; omega

end Sys2Proof.Machine
end

