-- ==== Sys2Proof/Laws/BlockCipher.lean ====
section
/-! SUPPORT. What the buffer operations of the cipher can do to BUF: their frames and the canonical form. Stated for
any block function `f`, so that encryption and decryption share them. -/

namespace Sys2Proof.Machine

variable (f : Word → Word → Word × Word)

/-- A block operation leaves every byte outside its eight alone; no premise. -/
theorem memRead_blockAt_ne (m : Memory) {o b : Nat} (h : b < o ∨ o + 8 ≤ b) : memRead (blockAt f o m) b = memRead m b := by
  simp only [blockAt]
  rw [memRead_memWrite32_ne _ _ (by omega), memRead_memWrite32_ne _ _ (by omega)]

/-- A block operation inside BUF keeps the canonical form. -/
theorem blockAt_wf {m : Memory} (hm : m.wf = true) {o : Nat} (ho : o + 8 ≤ Config.bufBytes) : (blockAt f o m).wf = true :=
  memWrite32_wf (memWrite32_wf hm (by omega) _) (by omega) _

/-- The two words of a block after a block operation are the block function of the two words before. -/
theorem blockAt_words {m : Memory} (hm : m.wf = true) {o : Nat} (ho : o + 8 ≤ Config.bufBytes) :
    (memRead32 (blockAt f o m) o, memRead32 (blockAt f o m) (o + 4)) = f (memRead32 m o) (memRead32 m (o + 4)) := by
  simp only [blockAt]
  rw [memRead32_memWrite32_ne _ _ (by omega), memRead32_memWrite32_same hm (by omega),
    memRead32_memWrite32_same (memWrite32_wf hm (by omega) _) (by omega)]

/-- The whole blocks leave every byte at or above `8n` alone; no premise. -/
theorem memRead_wholeBlocks_ge (m : Memory) {n b : Nat} (h : 8 * n ≤ b) : memRead (wholeBlocks f n m) b = memRead m b := by
  induction n with
  | zero => rfl
  | succ n ih => simp only [wholeBlocks]; rw [memRead_blockAt_ne f _ (by omega), ih (by omega)]

/-- The whole blocks keep the canonical form. -/
theorem wholeBlocks_wf {m : Memory} (hm : m.wf = true) {n : Nat} (hn : 8 * n ≤ Config.bufBytes) :
    (wholeBlocks f n m).wf = true := by
  induction n with
  | zero => exact hm
  | succ n ih => exact blockAt_wf f (ih (by omega)) (by omega)

/-- The lengths the cipher accepts, spelled out (R76). -/
theorem cipherLengthOk_iff (len : Nat) : cipherLengthOk len = true ↔ len = 0 ∨ (8 ≤ len ∧ len ≤ Config.bufBytes) := by
  simp [cipherLengthOk]

/-- The lengths CRC_UPD accepts, spelled out (R76). -/
theorem crcLengthOk_iff (len : Nat) : crcLengthOk len = true ↔ len ≤ Config.bufBytes := by
  simp [crcLengthOk]

/-- Encryption leaves every byte at or above the length alone (R136). -/
theorem memRead_encBuffer_ge (k : Key) {len : Nat} (hl : cipherLengthOk len = true) (m : Memory) {b : Nat} (h : len ≤ b) :
    memRead (encBuffer k len m) b = memRead m b := by
  rw [cipherLengthOk_iff] at hl
  simp only [encBuffer]
  split
  · exact memRead_wholeBlocks_ge _ _ (by omega)
  · rw [memRead_blockAt_ne _ _ (by omega), memRead_wholeBlocks_ge _ _ (by omega)]

/-- Decryption leaves every byte at or above the length alone (R136). -/
theorem memRead_decBuffer_ge (k : Key) {len : Nat} (hl : cipherLengthOk len = true) (m : Memory) {b : Nat} (h : len ≤ b) :
    memRead (decBuffer k len m) b = memRead m b := by
  rw [cipherLengthOk_iff] at hl
  simp only [decBuffer]
  rw [memRead_wholeBlocks_ge _ _ (by omega)]
  split
  · rfl
  · exact memRead_blockAt_ne _ _ (by omega)

/-- Encryption keeps the canonical form. -/
theorem encBuffer_wf (k : Key) {len : Nat} (hl : cipherLengthOk len = true) {m : Memory} (hm : m.wf = true) :
    (encBuffer k len m).wf = true := by
  rw [cipherLengthOk_iff] at hl
  have hw := wholeBlocks_wf (encBlock k) hm (n := len / 8) (by simp only [Config.bufBytes] at *; omega)
  simp only [encBuffer]
  split
  · exact hw
  · exact blockAt_wf _ hw (by omega)

/-- Decryption keeps the canonical form. -/
theorem decBuffer_wf (k : Key) {len : Nat} (hl : cipherLengthOk len = true) {m : Memory} (hm : m.wf = true) :
    (decBuffer k len m).wf = true := by
  rw [cipherLengthOk_iff] at hl
  simp only [decBuffer]
  refine wholeBlocks_wf _ ?_ (by simp only [Config.bufBytes] at *; omega)
  split
  · exact hm
  · exact blockAt_wf _ hm (by omega)

end Sys2Proof.Machine
end

