-- ==== Sys2Proof/Laws/Decode.lean ====
section
/-! SUPPORT. The numeric value and the fields of an encoded word, and what decoding can answer. -/

namespace Sys2Proof

@[simp] theorem QReg.ofIndex_index (r : QReg) : QReg.ofIndex r.index = some r := by cases r <;> rfl

theorem QReg.index_lt (r : QReg) : r.index < 8 := by cases r <;> decide

theorem QReg.index_of_ofIndex {n : Nat} {r : QReg} (h : QReg.ofIndex n = some r) : r.index = n := by
  have named : ∀ k : Fin 8, (QReg.ofIndex k.val).map QReg.index = some k.val := by decide
  by_cases hn : n < 8
  · simpa [h] using named ⟨n, hn⟩
  · obtain ⟨k, rfl⟩ : ∃ k, n = k + 8 := ⟨n - 8, by omega⟩
    cases h

theorem QReg.ofIndex_eq_none {n : Nat} (h : 8 ≤ n) : QReg.ofIndex n = none := by
  match n with
  | n + 8 => rfl

theorem QReg.code_toNat (r : QReg) : r.code.toNat = r.index := by cases r <;> rfl

theorem QReg.code_lt (r : QReg) : r.code.toNat < 8 := by cases r <;> decide

/-- A number below `2^n` and a multiple of `2^n` are put together by `OR` as by `+`. -/
theorem nat_or_shift_eq_add {x y n : Nat} (h : x < 2 ^ n) : x ||| y <<< n = x + y * 2 ^ n := by
  rw [Nat.or_comm, Nat.shiftLeft_eq, Nat.mul_comm y, ← Nat.two_pow_add_eq_or_of_lt h, Nat.add_comm]

/-- The numeric value of an encoded word: the sum of R74. -/
theorem encodeWord_toNat {op d s1 s2 m : Word} (hop : op.toNat < 2 ^ 8) (hd : d.toNat < 2 ^ 4) (h1 : s1.toNat < 2 ^ 4)
    (h2 : s2.toNat < 2 ^ 4) (hm : m.toNat < 2 ^ 4) :
    (encodeWord op d s1 s2 m).toNat =
      op.toNat + d.toNat * 2 ^ 8 + s1.toNat * 2 ^ 12 + s2.toNat * 2 ^ 16 + m.toNat * 2 ^ 20 := by
  have small : ∀ (x : Word) (n : Nat), x.toNat < 2 ^ 4 → n ≤ 20 → (x <<< n).toNat = x.toNat <<< n := by
    intro x n hx hn
    rw [BitVec.toNat_shiftLeft, Nat.shiftLeft_eq, Nat.mod_eq_of_lt]
    calc x.toNat * 2 ^ n < 2 ^ 4 * 2 ^ n := Nat.mul_lt_mul_of_pos_right hx (by positivity)
      _ ≤ 2 ^ 4 * 2 ^ 20 := Nat.mul_le_mul_left _ (Nat.pow_le_pow_right (by decide) hn)
      _ < 2 ^ 32 := by decide
  simp only [encodeWord, BitVec.toNat_or]
  rw [small d 8 hd (by decide), small s1 12 h1 (by decide), small s2 16 h2 (by decide), small m 20 hm (by decide)]
  rw [nat_or_shift_eq_add hop]
  rw [nat_or_shift_eq_add (x := _ + _) (by omega)]
  rw [nat_or_shift_eq_add (x := _ + _) (by omega)]
  rw [nat_or_shift_eq_add (x := _ + _) (by omega)]

/-- The fields of a word, as numbers (R71). -/
theorem fieldOp_toNat (w : Word) : (fieldOp w).toNat = w.toNat % 2 ^ 8 := by
  simp [fieldOp, BitVec.extractLsb'_toNat]
theorem fieldRd_toNat (w : Word) : (fieldRd w).toNat = w.toNat / 2 ^ 8 % 2 ^ 4 := by
  simp [fieldRd, BitVec.extractLsb'_toNat, Nat.shiftRight_eq_div_pow]
theorem fieldRs1_toNat (w : Word) : (fieldRs1 w).toNat = w.toNat / 2 ^ 12 % 2 ^ 4 := by
  simp [fieldRs1, BitVec.extractLsb'_toNat, Nat.shiftRight_eq_div_pow]
theorem fieldRs2_toNat (w : Word) : (fieldRs2 w).toNat = w.toNat / 2 ^ 16 % 2 ^ 4 := by
  simp [fieldRs2, BitVec.extractLsb'_toNat, Nat.shiftRight_eq_div_pow]
theorem fieldRm_toNat (w : Word) : (fieldRm w).toNat = w.toNat / 2 ^ 20 % 2 ^ 4 := by
  simp [fieldRm, BitVec.extractLsb'_toNat, Nat.shiftRight_eq_div_pow]
theorem fieldZ_toNat (w : Word) : (fieldZ w).toNat = w.toNat / 2 ^ 24 % 2 ^ 8 := by
  simp [fieldZ, BitVec.extractLsb'_toNat, Nat.shiftRight_eq_div_pow]

/-- The fields of an encoded word are what was encoded (R71, R74). -/
theorem fields_encodeWord {op d s1 s2 m : Word} (hop : op.toNat < 2 ^ 8) (hd : d.toNat < 2 ^ 4) (h1 : s1.toNat < 2 ^ 4)
    (h2 : s2.toNat < 2 ^ 4) (hm : m.toNat < 2 ^ 4) :
    (fieldOp (encodeWord op d s1 s2 m)).toNat = op.toNat ∧ (fieldRd (encodeWord op d s1 s2 m)).toNat = d.toNat ∧
    (fieldRs1 (encodeWord op d s1 s2 m)).toNat = s1.toNat ∧ (fieldRs2 (encodeWord op d s1 s2 m)).toNat = s2.toNat ∧
    (fieldRm (encodeWord op d s1 s2 m)).toNat = m.toNat ∧ (fieldZ (encodeWord op d s1 s2 m)).toNat = 0 := by
  rw [fieldOp_toNat, fieldRd_toNat, fieldRs1_toNat, fieldRs2_toNat, fieldRm_toNat, fieldZ_toNat,
    encodeWord_toNat hop hd h1 h2 hm]
  omega

/-- What a used register field can answer. -/
theorem usedField_eq_ok {f : BitVec 4} {r : QReg} : usedField f = .ok r ↔ f.toNat = r.index := by
  unfold usedField
  constructor
  · intro h
    split at h
    · rename_i r' h'
      cases h
      exact (QReg.index_of_ofIndex h').symm
    · cases h
  · intro h
    rw [h, QReg.ofIndex_index]

/-- What a used register field answers above 7 (R75 (d)). -/
theorem usedField_error {f : BitVec 4} (h : 8 ≤ f.toNat) : usedField f = .error .reservedField := by
  unfold usedField
  rw [QReg.ofIndex_eq_none h]

/-- What a must-be-zero field can answer. -/
theorem mustBeZero_eq_ok {n : Nat} {f : BitVec n} {u : Unit} : mustBeZero f = .ok u ↔ f.toNat = 0 := by
  have e : f = 0 ↔ f.toNat = 0 := ⟨fun h => by simp [h], fun h => BitVec.eq_of_toNat_eq (by simpa using h)⟩
  unfold mustBeZero
  by_cases h : f = 0
  · simp [h]
  · rw [if_neg h]
    exact ⟨fun h' => (nomatch h'), fun h' => absurd (e.2 h') h⟩

/-- A must-be-zero field that is not zero. -/
theorem mustBeZero_error {n : Nat} {f : BitVec n} (h : f.toNat ≠ 0) : mustBeZero f = .error .reservedField := by
  unfold mustBeZero
  rw [if_neg]
  rintro rfl
  simp at h

/-- A bind that answers came from two that answered. -/
theorem except_bind_eq_ok {α β : Type} {x : Except CmdError α} {f : α → Except CmdError β} {b : β} :
    (x >>= f) = .ok b ↔ ∃ a, x = .ok a ∧ f a = .ok b := by
  cases x with
  | error e => exact ⟨fun h => (nomatch h), fun ⟨_, h, _⟩ => (nomatch h)⟩
  | ok a => exact ⟨fun h => ⟨a, rfl, h⟩, fun ⟨_, h, h'⟩ => by cases h; exact h'⟩

/-- Two words with the same fields are the same word: the fields cover all 32 bits (R71). -/
theorem word_ext_fields {w v : Word} (h0 : (fieldOp w).toNat = (fieldOp v).toNat) (h1 : (fieldRd w).toNat = (fieldRd v).toNat)
    (h2 : (fieldRs1 w).toNat = (fieldRs1 v).toNat) (h3 : (fieldRs2 w).toNat = (fieldRs2 v).toNat)
    (h4 : (fieldRm w).toNat = (fieldRm v).toNat) (h5 : (fieldZ w).toNat = (fieldZ v).toNat) : w = v := by
  apply BitVec.eq_of_toNat_eq
  rw [fieldOp_toNat, fieldOp_toNat] at h0
  rw [fieldRd_toNat, fieldRd_toNat] at h1
  rw [fieldRs1_toNat, fieldRs1_toNat] at h2
  rw [fieldRs2_toNat, fieldRs2_toNat] at h3
  rw [fieldRm_toNat, fieldRm_toNat] at h4
  rw [fieldZ_toNat, fieldZ_toNat] at h5
  have := w.isLt
  have := v.isLt
  omega

end Sys2Proof
end

