-- ==== Sys2Proof/Laws/ModExp.lean ====
section
/-! SUPPORT. The loops unrolled at their last iteration, for inductions over the number of iterations, and what one
iteration can do to the numbers. -/

namespace Sys2Proof.Machine

theorem mulLoop_succ (m : Big) (n : Nat) (x : MulRegs) : mulLoop m (n + 1) x = mulStep m (mulLoop m n x) := by
  induction n generalizing x with
  | zero => rfl
  | succ n ih => rw [mulLoop, ih, mulLoop]

theorem expLoop_succ (m : Big) (n : Nat) (x : ExpRegs) : expLoop m (n + 1) x = expStep m (expLoop m n x) := by
  induction n generalizing x with
  | zero => rfl
  | succ n ih => rw [expLoop, ih, expLoop]

theorem cipherLoop_succ (f : Round → Round) (n : Nat) (x : Round) : cipherLoop f (n + 1) x = f (cipherLoop f n x) := by
  induction n generalizing x with
  | zero => rfl
  | succ n ih => rw [cipherLoop, ih, cipherLoop]

theorem add128_toNat (a b : Big) : (add128 a b).toNat = (a.toNat + b.toNat) % 2 ^ 128 := by
  simp [add128, BitVec.toNat_add]

theorem shl1_toNat (a : Big) : (shl1 a).toNat = 2 * a.toNat % 2 ^ 128 := by
  simp [shl1, BitVec.toNat_shiftLeft, Nat.shiftLeft_eq, Nat.mul_comm]

theorem shr1_toNat (a : Big) : (shr1 a).toNat = a.toNat / 2 := by
  simp [shr1, BitVec.toNat_ushiftRight, Nat.shiftRight_eq_div_pow]

/-- `Fix` as numbers (R94): the subtraction never borrows. -/
theorem fix_toNat (a m : Big) : (fix a m).toNat = if m.toNat < a.toNat then a.toNat - m.toNat else a.toNat := by
  have ha := a.isLt
  unfold fix
  simp only [BitVec.lt_def]
  split
  · rw [BitVec.toNat_sub_of_le]
    rw [BitVec.le_def]; omega
  · rfl

/-- The low bit, as a number. -/
theorem getLsbD_zero_eq (a : Big) : a.getLsbD 0 = decide (a.toNat % 2 = 1) := by
  simp [BitVec.getLsbD, Nat.testBit_zero]

end Sys2Proof.Machine
end

