-- ==== Sys2Proof/Laws/State.lean ====
section
/-! SUPPORT. One lemma per field per update of the state, each true by `rfl`, so that no proof unfolds a record update. -/

namespace Sys2Proof.Machine

variable (s : State)

/-! `State.setQ` -/
@[simp] theorem State.setQ_q (x : QFile) : (s.setQ x).q = x := rfl
@[simp] theorem State.setQ_buf (x : QFile) : (s.setQ x).buf = s.buf := rfl
@[simp] theorem State.setQ_blen (x : QFile) : (s.setQ x).blen = s.blen := rfl
@[simp] theorem State.setQ_crc (x : QFile) : (s.setQ x).crc = s.crc := rfl
@[simp] theorem State.setQ_ie (x : QFile) : (s.setQ x).ie = s.ie := rfl
@[simp] theorem State.setQ_busy (x : QFile) : (s.setQ x).busy = s.busy := rfl
@[simp] theorem State.setQ_done (x : QFile) : (s.setQ x).done = s.done := rfl
@[simp] theorem State.setQ_err (x : QFile) : (s.setQ x).err = s.err := rfl
@[simp] theorem State.setQ_werr (x : QFile) : (s.setQ x).werr = s.werr := rfl
@[simp] theorem State.setQ_cmp (x : QFile) : (s.setQ x).cmp = s.cmp := rfl
@[simp] theorem State.setQ_errCode (x : QFile) : (s.setQ x).errCode = s.errCode := rfl
@[simp] theorem State.setQ_cmdr (x : QFile) : (s.setQ x).cmdr = s.cmdr := rfl
@[simp] theorem State.setQ_errCmd (x : QFile) : (s.setQ x).errCmd = s.errCmd := rfl
@[simp] theorem State.setQ_answer (x : QFile) : (s.setQ x).answer = s.answer := rfl
@[simp] theorem State.setQ_schedule (x : QFile) : (s.setQ x).schedule = s.schedule := rfl
@[simp] theorem State.setQ_draws (x : QFile) : (s.setQ x).draws = s.draws := rfl

/-! `State.setBuf` -/
@[simp] theorem State.setBuf_q (x : Memory) : (s.setBuf x).q = s.q := rfl
@[simp] theorem State.setBuf_buf (x : Memory) : (s.setBuf x).buf = x := rfl
@[simp] theorem State.setBuf_blen (x : Memory) : (s.setBuf x).blen = s.blen := rfl
@[simp] theorem State.setBuf_crc (x : Memory) : (s.setBuf x).crc = s.crc := rfl
@[simp] theorem State.setBuf_ie (x : Memory) : (s.setBuf x).ie = s.ie := rfl
@[simp] theorem State.setBuf_busy (x : Memory) : (s.setBuf x).busy = s.busy := rfl
@[simp] theorem State.setBuf_done (x : Memory) : (s.setBuf x).done = s.done := rfl
@[simp] theorem State.setBuf_err (x : Memory) : (s.setBuf x).err = s.err := rfl
@[simp] theorem State.setBuf_werr (x : Memory) : (s.setBuf x).werr = s.werr := rfl
@[simp] theorem State.setBuf_cmp (x : Memory) : (s.setBuf x).cmp = s.cmp := rfl
@[simp] theorem State.setBuf_errCode (x : Memory) : (s.setBuf x).errCode = s.errCode := rfl
@[simp] theorem State.setBuf_cmdr (x : Memory) : (s.setBuf x).cmdr = s.cmdr := rfl
@[simp] theorem State.setBuf_errCmd (x : Memory) : (s.setBuf x).errCmd = s.errCmd := rfl
@[simp] theorem State.setBuf_answer (x : Memory) : (s.setBuf x).answer = s.answer := rfl
@[simp] theorem State.setBuf_schedule (x : Memory) : (s.setBuf x).schedule = s.schedule := rfl
@[simp] theorem State.setBuf_draws (x : Memory) : (s.setBuf x).draws = s.draws := rfl

/-! `State.setBlen` -/
@[simp] theorem State.setBlen_q (x : Word) : (s.setBlen x).q = s.q := rfl
@[simp] theorem State.setBlen_buf (x : Word) : (s.setBlen x).buf = s.buf := rfl
@[simp] theorem State.setBlen_blen (x : Word) : (s.setBlen x).blen = x := rfl
@[simp] theorem State.setBlen_crc (x : Word) : (s.setBlen x).crc = s.crc := rfl
@[simp] theorem State.setBlen_ie (x : Word) : (s.setBlen x).ie = s.ie := rfl
@[simp] theorem State.setBlen_busy (x : Word) : (s.setBlen x).busy = s.busy := rfl
@[simp] theorem State.setBlen_done (x : Word) : (s.setBlen x).done = s.done := rfl
@[simp] theorem State.setBlen_err (x : Word) : (s.setBlen x).err = s.err := rfl
@[simp] theorem State.setBlen_werr (x : Word) : (s.setBlen x).werr = s.werr := rfl
@[simp] theorem State.setBlen_cmp (x : Word) : (s.setBlen x).cmp = s.cmp := rfl
@[simp] theorem State.setBlen_errCode (x : Word) : (s.setBlen x).errCode = s.errCode := rfl
@[simp] theorem State.setBlen_cmdr (x : Word) : (s.setBlen x).cmdr = s.cmdr := rfl
@[simp] theorem State.setBlen_errCmd (x : Word) : (s.setBlen x).errCmd = s.errCmd := rfl
@[simp] theorem State.setBlen_answer (x : Word) : (s.setBlen x).answer = s.answer := rfl
@[simp] theorem State.setBlen_schedule (x : Word) : (s.setBlen x).schedule = s.schedule := rfl
@[simp] theorem State.setBlen_draws (x : Word) : (s.setBlen x).draws = s.draws := rfl

/-! `State.setCrc` -/
@[simp] theorem State.setCrc_q (x : Word) : (s.setCrc x).q = s.q := rfl
@[simp] theorem State.setCrc_buf (x : Word) : (s.setCrc x).buf = s.buf := rfl
@[simp] theorem State.setCrc_blen (x : Word) : (s.setCrc x).blen = s.blen := rfl
@[simp] theorem State.setCrc_crc (x : Word) : (s.setCrc x).crc = x := rfl
@[simp] theorem State.setCrc_ie (x : Word) : (s.setCrc x).ie = s.ie := rfl
@[simp] theorem State.setCrc_busy (x : Word) : (s.setCrc x).busy = s.busy := rfl
@[simp] theorem State.setCrc_done (x : Word) : (s.setCrc x).done = s.done := rfl
@[simp] theorem State.setCrc_err (x : Word) : (s.setCrc x).err = s.err := rfl
@[simp] theorem State.setCrc_werr (x : Word) : (s.setCrc x).werr = s.werr := rfl
@[simp] theorem State.setCrc_cmp (x : Word) : (s.setCrc x).cmp = s.cmp := rfl
@[simp] theorem State.setCrc_errCode (x : Word) : (s.setCrc x).errCode = s.errCode := rfl
@[simp] theorem State.setCrc_cmdr (x : Word) : (s.setCrc x).cmdr = s.cmdr := rfl
@[simp] theorem State.setCrc_errCmd (x : Word) : (s.setCrc x).errCmd = s.errCmd := rfl
@[simp] theorem State.setCrc_answer (x : Word) : (s.setCrc x).answer = s.answer := rfl
@[simp] theorem State.setCrc_schedule (x : Word) : (s.setCrc x).schedule = s.schedule := rfl
@[simp] theorem State.setCrc_draws (x : Word) : (s.setCrc x).draws = s.draws := rfl

/-! `State.setIe` -/
@[simp] theorem State.setIe_q (x : Bool) : (s.setIe x).q = s.q := rfl
@[simp] theorem State.setIe_buf (x : Bool) : (s.setIe x).buf = s.buf := rfl
@[simp] theorem State.setIe_blen (x : Bool) : (s.setIe x).blen = s.blen := rfl
@[simp] theorem State.setIe_crc (x : Bool) : (s.setIe x).crc = s.crc := rfl
@[simp] theorem State.setIe_ie (x : Bool) : (s.setIe x).ie = x := rfl
@[simp] theorem State.setIe_busy (x : Bool) : (s.setIe x).busy = s.busy := rfl
@[simp] theorem State.setIe_done (x : Bool) : (s.setIe x).done = s.done := rfl
@[simp] theorem State.setIe_err (x : Bool) : (s.setIe x).err = s.err := rfl
@[simp] theorem State.setIe_werr (x : Bool) : (s.setIe x).werr = s.werr := rfl
@[simp] theorem State.setIe_cmp (x : Bool) : (s.setIe x).cmp = s.cmp := rfl
@[simp] theorem State.setIe_errCode (x : Bool) : (s.setIe x).errCode = s.errCode := rfl
@[simp] theorem State.setIe_cmdr (x : Bool) : (s.setIe x).cmdr = s.cmdr := rfl
@[simp] theorem State.setIe_errCmd (x : Bool) : (s.setIe x).errCmd = s.errCmd := rfl
@[simp] theorem State.setIe_answer (x : Bool) : (s.setIe x).answer = s.answer := rfl
@[simp] theorem State.setIe_schedule (x : Bool) : (s.setIe x).schedule = s.schedule := rfl
@[simp] theorem State.setIe_draws (x : Bool) : (s.setIe x).draws = s.draws := rfl

/-! `State.setCmp` -/
@[simp] theorem State.setCmp_q (x : BitVec 2) : (s.setCmp x).q = s.q := rfl
@[simp] theorem State.setCmp_buf (x : BitVec 2) : (s.setCmp x).buf = s.buf := rfl
@[simp] theorem State.setCmp_blen (x : BitVec 2) : (s.setCmp x).blen = s.blen := rfl
@[simp] theorem State.setCmp_crc (x : BitVec 2) : (s.setCmp x).crc = s.crc := rfl
@[simp] theorem State.setCmp_ie (x : BitVec 2) : (s.setCmp x).ie = s.ie := rfl
@[simp] theorem State.setCmp_busy (x : BitVec 2) : (s.setCmp x).busy = s.busy := rfl
@[simp] theorem State.setCmp_done (x : BitVec 2) : (s.setCmp x).done = s.done := rfl
@[simp] theorem State.setCmp_err (x : BitVec 2) : (s.setCmp x).err = s.err := rfl
@[simp] theorem State.setCmp_werr (x : BitVec 2) : (s.setCmp x).werr = s.werr := rfl
@[simp] theorem State.setCmp_cmp (x : BitVec 2) : (s.setCmp x).cmp = x := rfl
@[simp] theorem State.setCmp_errCode (x : BitVec 2) : (s.setCmp x).errCode = s.errCode := rfl
@[simp] theorem State.setCmp_cmdr (x : BitVec 2) : (s.setCmp x).cmdr = s.cmdr := rfl
@[simp] theorem State.setCmp_errCmd (x : BitVec 2) : (s.setCmp x).errCmd = s.errCmd := rfl
@[simp] theorem State.setCmp_answer (x : BitVec 2) : (s.setCmp x).answer = s.answer := rfl
@[simp] theorem State.setCmp_schedule (x : BitVec 2) : (s.setCmp x).schedule = s.schedule := rfl
@[simp] theorem State.setCmp_draws (x : BitVec 2) : (s.setCmp x).draws = s.draws := rfl

/-! `State.dropWrite` -/
@[simp] theorem State.dropWrite_q : (s.dropWrite).q = s.q := rfl
@[simp] theorem State.dropWrite_buf : (s.dropWrite).buf = s.buf := rfl
@[simp] theorem State.dropWrite_blen : (s.dropWrite).blen = s.blen := rfl
@[simp] theorem State.dropWrite_crc : (s.dropWrite).crc = s.crc := rfl
@[simp] theorem State.dropWrite_ie : (s.dropWrite).ie = s.ie := rfl
@[simp] theorem State.dropWrite_busy : (s.dropWrite).busy = s.busy := rfl
@[simp] theorem State.dropWrite_done : (s.dropWrite).done = s.done := rfl
@[simp] theorem State.dropWrite_err : (s.dropWrite).err = s.err := rfl
@[simp] theorem State.dropWrite_werr : (s.dropWrite).werr = true := rfl
@[simp] theorem State.dropWrite_cmp : (s.dropWrite).cmp = s.cmp := rfl
@[simp] theorem State.dropWrite_errCode : (s.dropWrite).errCode = s.errCode := rfl
@[simp] theorem State.dropWrite_cmdr : (s.dropWrite).cmdr = s.cmdr := rfl
@[simp] theorem State.dropWrite_errCmd : (s.dropWrite).errCmd = s.errCmd := rfl
@[simp] theorem State.dropWrite_answer : (s.dropWrite).answer = s.answer := rfl
@[simp] theorem State.dropWrite_schedule : (s.dropWrite).schedule = s.schedule := rfl
@[simp] theorem State.dropWrite_draws : (s.dropWrite).draws = s.draws := rfl

/-! `State.respond` -/
@[simp] theorem State.respond_q (x : Answer) : (s.respond x).q = s.q := rfl
@[simp] theorem State.respond_buf (x : Answer) : (s.respond x).buf = s.buf := rfl
@[simp] theorem State.respond_blen (x : Answer) : (s.respond x).blen = s.blen := rfl
@[simp] theorem State.respond_crc (x : Answer) : (s.respond x).crc = s.crc := rfl
@[simp] theorem State.respond_ie (x : Answer) : (s.respond x).ie = s.ie := rfl
@[simp] theorem State.respond_busy (x : Answer) : (s.respond x).busy = s.busy := rfl
@[simp] theorem State.respond_done (x : Answer) : (s.respond x).done = s.done := rfl
@[simp] theorem State.respond_err (x : Answer) : (s.respond x).err = s.err := rfl
@[simp] theorem State.respond_werr (x : Answer) : (s.respond x).werr = s.werr := rfl
@[simp] theorem State.respond_cmp (x : Answer) : (s.respond x).cmp = s.cmp := rfl
@[simp] theorem State.respond_errCode (x : Answer) : (s.respond x).errCode = s.errCode := rfl
@[simp] theorem State.respond_cmdr (x : Answer) : (s.respond x).cmdr = s.cmdr := rfl
@[simp] theorem State.respond_errCmd (x : Answer) : (s.respond x).errCmd = s.errCmd := rfl
@[simp] theorem State.respond_answer (x : Answer) : (s.respond x).answer = some x := rfl
@[simp] theorem State.respond_schedule (x : Answer) : (s.respond x).schedule = s.schedule := rfl
@[simp] theorem State.respond_draws (x : Answer) : (s.respond x).draws = s.draws := rfl

/-! `State.setSchedule` -/
@[simp] theorem State.setSchedule_q (x : List Event) : (s.setSchedule x).q = s.q := rfl
@[simp] theorem State.setSchedule_buf (x : List Event) : (s.setSchedule x).buf = s.buf := rfl
@[simp] theorem State.setSchedule_blen (x : List Event) : (s.setSchedule x).blen = s.blen := rfl
@[simp] theorem State.setSchedule_crc (x : List Event) : (s.setSchedule x).crc = s.crc := rfl
@[simp] theorem State.setSchedule_ie (x : List Event) : (s.setSchedule x).ie = s.ie := rfl
@[simp] theorem State.setSchedule_busy (x : List Event) : (s.setSchedule x).busy = s.busy := rfl
@[simp] theorem State.setSchedule_done (x : List Event) : (s.setSchedule x).done = s.done := rfl
@[simp] theorem State.setSchedule_err (x : List Event) : (s.setSchedule x).err = s.err := rfl
@[simp] theorem State.setSchedule_werr (x : List Event) : (s.setSchedule x).werr = s.werr := rfl
@[simp] theorem State.setSchedule_cmp (x : List Event) : (s.setSchedule x).cmp = s.cmp := rfl
@[simp] theorem State.setSchedule_errCode (x : List Event) : (s.setSchedule x).errCode = s.errCode := rfl
@[simp] theorem State.setSchedule_cmdr (x : List Event) : (s.setSchedule x).cmdr = s.cmdr := rfl
@[simp] theorem State.setSchedule_errCmd (x : List Event) : (s.setSchedule x).errCmd = s.errCmd := rfl
@[simp] theorem State.setSchedule_answer (x : List Event) : (s.setSchedule x).answer = s.answer := rfl
@[simp] theorem State.setSchedule_schedule (x : List Event) : (s.setSchedule x).schedule = x := rfl
@[simp] theorem State.setSchedule_draws (x : List Event) : (s.setSchedule x).draws = s.draws := rfl

/-! `State.draw` -/
@[simp] theorem State.draw_q : (s.draw).q = s.q := rfl
@[simp] theorem State.draw_buf : (s.draw).buf = s.buf := rfl
@[simp] theorem State.draw_blen : (s.draw).blen = s.blen := rfl
@[simp] theorem State.draw_crc : (s.draw).crc = s.crc := rfl
@[simp] theorem State.draw_ie : (s.draw).ie = s.ie := rfl
@[simp] theorem State.draw_busy : (s.draw).busy = s.busy := rfl
@[simp] theorem State.draw_done : (s.draw).done = s.done := rfl
@[simp] theorem State.draw_err : (s.draw).err = s.err := rfl
@[simp] theorem State.draw_werr : (s.draw).werr = s.werr := rfl
@[simp] theorem State.draw_cmp : (s.draw).cmp = s.cmp := rfl
@[simp] theorem State.draw_errCode : (s.draw).errCode = s.errCode := rfl
@[simp] theorem State.draw_cmdr : (s.draw).cmdr = s.cmdr := rfl
@[simp] theorem State.draw_errCmd : (s.draw).errCmd = s.errCmd := rfl
@[simp] theorem State.draw_answer : (s.draw).answer = s.answer := rfl
@[simp] theorem State.draw_schedule : (s.draw).schedule = s.schedule := rfl
@[simp] theorem State.draw_draws : (s.draw).draws = s.draws + 1 := rfl

/-! `State.accept` -/
@[simp] theorem State.accept_q (x : Word) : (s.accept x).q = s.q := rfl
@[simp] theorem State.accept_buf (x : Word) : (s.accept x).buf = s.buf := rfl
@[simp] theorem State.accept_blen (x : Word) : (s.accept x).blen = s.blen := rfl
@[simp] theorem State.accept_crc (x : Word) : (s.accept x).crc = s.crc := rfl
@[simp] theorem State.accept_ie (x : Word) : (s.accept x).ie = s.ie := rfl
@[simp] theorem State.accept_busy (x : Word) : (s.accept x).busy = true := rfl
@[simp] theorem State.accept_done (x : Word) : (s.accept x).done = false := rfl
@[simp] theorem State.accept_err (x : Word) : (s.accept x).err = s.err := rfl
@[simp] theorem State.accept_werr (x : Word) : (s.accept x).werr = s.werr := rfl
@[simp] theorem State.accept_cmp (x : Word) : (s.accept x).cmp = s.cmp := rfl
@[simp] theorem State.accept_errCode (x : Word) : (s.accept x).errCode = s.errCode := rfl
@[simp] theorem State.accept_cmdr (x : Word) : (s.accept x).cmdr = x := rfl
@[simp] theorem State.accept_errCmd (x : Word) : (s.accept x).errCmd = s.errCmd := rfl
@[simp] theorem State.accept_answer (x : Word) : (s.accept x).answer = s.answer := rfl
@[simp] theorem State.accept_schedule (x : Word) : (s.accept x).schedule = s.schedule := rfl
@[simp] theorem State.accept_draws (x : Word) : (s.accept x).draws = s.draws := rfl

/-! `State.finish` -/
@[simp] theorem State.finish_q : (s.finish).q = s.q := rfl
@[simp] theorem State.finish_buf : (s.finish).buf = s.buf := rfl
@[simp] theorem State.finish_blen : (s.finish).blen = s.blen := rfl
@[simp] theorem State.finish_crc : (s.finish).crc = s.crc := rfl
@[simp] theorem State.finish_ie : (s.finish).ie = s.ie := rfl
@[simp] theorem State.finish_busy : (s.finish).busy = false := rfl
@[simp] theorem State.finish_done : (s.finish).done = true := rfl
@[simp] theorem State.finish_err : (s.finish).err = s.err := rfl
@[simp] theorem State.finish_werr : (s.finish).werr = s.werr := rfl
@[simp] theorem State.finish_cmp : (s.finish).cmp = s.cmp := rfl
@[simp] theorem State.finish_errCode : (s.finish).errCode = s.errCode := rfl
@[simp] theorem State.finish_cmdr : (s.finish).cmdr = s.cmdr := rfl
@[simp] theorem State.finish_errCmd : (s.finish).errCmd = s.errCmd := rfl
@[simp] theorem State.finish_answer : (s.finish).answer = s.answer := rfl
@[simp] theorem State.finish_schedule : (s.finish).schedule = s.schedule := rfl
@[simp] theorem State.finish_draws : (s.finish).draws = s.draws := rfl

/-! `State.reject` -/
@[simp] theorem State.reject_q (e : CmdError) (x : Word) : (s.reject e x).q = s.q := rfl
@[simp] theorem State.reject_buf (e : CmdError) (x : Word) : (s.reject e x).buf = s.buf := rfl
@[simp] theorem State.reject_blen (e : CmdError) (x : Word) : (s.reject e x).blen = s.blen := rfl
@[simp] theorem State.reject_crc (e : CmdError) (x : Word) : (s.reject e x).crc = s.crc := rfl
@[simp] theorem State.reject_ie (e : CmdError) (x : Word) : (s.reject e x).ie = s.ie := rfl
@[simp] theorem State.reject_busy (e : CmdError) (x : Word) : (s.reject e x).busy = s.busy := rfl
@[simp] theorem State.reject_done (e : CmdError) (x : Word) : (s.reject e x).done = true := rfl
@[simp] theorem State.reject_err (e : CmdError) (x : Word) : (s.reject e x).err = true := rfl
@[simp] theorem State.reject_werr (e : CmdError) (x : Word) : (s.reject e x).werr = s.werr := rfl
@[simp] theorem State.reject_cmp (e : CmdError) (x : Word) : (s.reject e x).cmp = s.cmp := rfl
@[simp] theorem State.reject_errCode (e : CmdError) (x : Word) : (s.reject e x).errCode = if s.err then s.errCode else CmdError.code e := rfl
@[simp] theorem State.reject_cmdr (e : CmdError) (x : Word) : (s.reject e x).cmdr = s.cmdr := rfl
@[simp] theorem State.reject_errCmd (e : CmdError) (x : Word) : (s.reject e x).errCmd = if s.err then s.errCmd else x := rfl
@[simp] theorem State.reject_answer (e : CmdError) (x : Word) : (s.reject e x).answer = s.answer := rfl
@[simp] theorem State.reject_schedule (e : CmdError) (x : Word) : (s.reject e x).schedule = s.schedule := rfl
@[simp] theorem State.reject_draws (e : CmdError) (x : Word) : (s.reject e x).draws = s.draws := rfl

/-! `State.clearError` -/
@[simp] theorem State.clearError_q : (s.clearError).q = s.q := rfl
@[simp] theorem State.clearError_buf : (s.clearError).buf = s.buf := rfl
@[simp] theorem State.clearError_blen : (s.clearError).blen = s.blen := rfl
@[simp] theorem State.clearError_crc : (s.clearError).crc = s.crc := rfl
@[simp] theorem State.clearError_ie : (s.clearError).ie = s.ie := rfl
@[simp] theorem State.clearError_busy : (s.clearError).busy = s.busy := rfl
@[simp] theorem State.clearError_done : (s.clearError).done = s.done := rfl
@[simp] theorem State.clearError_err : (s.clearError).err = false := rfl
@[simp] theorem State.clearError_werr : (s.clearError).werr = s.werr := rfl
@[simp] theorem State.clearError_cmp : (s.clearError).cmp = s.cmp := rfl
@[simp] theorem State.clearError_errCode : (s.clearError).errCode = 0 := rfl
@[simp] theorem State.clearError_cmdr : (s.clearError).cmdr = s.cmdr := rfl
@[simp] theorem State.clearError_errCmd : (s.clearError).errCmd = 0 := rfl
@[simp] theorem State.clearError_answer : (s.clearError).answer = s.answer := rfl
@[simp] theorem State.clearError_schedule : (s.clearError).schedule = s.schedule := rfl
@[simp] theorem State.clearError_draws : (s.clearError).draws = s.draws := rfl

/-! `State.clearDone` -/
@[simp] theorem State.clearDone_q : (s.clearDone).q = s.q := rfl
@[simp] theorem State.clearDone_buf : (s.clearDone).buf = s.buf := rfl
@[simp] theorem State.clearDone_blen : (s.clearDone).blen = s.blen := rfl
@[simp] theorem State.clearDone_crc : (s.clearDone).crc = s.crc := rfl
@[simp] theorem State.clearDone_ie : (s.clearDone).ie = s.ie := rfl
@[simp] theorem State.clearDone_busy : (s.clearDone).busy = s.busy := rfl
@[simp] theorem State.clearDone_done : (s.clearDone).done = false := rfl
@[simp] theorem State.clearDone_err : (s.clearDone).err = s.err := rfl
@[simp] theorem State.clearDone_werr : (s.clearDone).werr = s.werr := rfl
@[simp] theorem State.clearDone_cmp : (s.clearDone).cmp = s.cmp := rfl
@[simp] theorem State.clearDone_errCode : (s.clearDone).errCode = s.errCode := rfl
@[simp] theorem State.clearDone_cmdr : (s.clearDone).cmdr = s.cmdr := rfl
@[simp] theorem State.clearDone_errCmd : (s.clearDone).errCmd = s.errCmd := rfl
@[simp] theorem State.clearDone_answer : (s.clearDone).answer = s.answer := rfl
@[simp] theorem State.clearDone_schedule : (s.clearDone).schedule = s.schedule := rfl
@[simp] theorem State.clearDone_draws : (s.clearDone).draws = s.draws := rfl

/-! `State.clearWerr` -/
@[simp] theorem State.clearWerr_q : (s.clearWerr).q = s.q := rfl
@[simp] theorem State.clearWerr_buf : (s.clearWerr).buf = s.buf := rfl
@[simp] theorem State.clearWerr_blen : (s.clearWerr).blen = s.blen := rfl
@[simp] theorem State.clearWerr_crc : (s.clearWerr).crc = s.crc := rfl
@[simp] theorem State.clearWerr_ie : (s.clearWerr).ie = s.ie := rfl
@[simp] theorem State.clearWerr_busy : (s.clearWerr).busy = s.busy := rfl
@[simp] theorem State.clearWerr_done : (s.clearWerr).done = s.done := rfl
@[simp] theorem State.clearWerr_err : (s.clearWerr).err = s.err := rfl
@[simp] theorem State.clearWerr_werr : (s.clearWerr).werr = false := rfl
@[simp] theorem State.clearWerr_cmp : (s.clearWerr).cmp = s.cmp := rfl
@[simp] theorem State.clearWerr_errCode : (s.clearWerr).errCode = s.errCode := rfl
@[simp] theorem State.clearWerr_cmdr : (s.clearWerr).cmdr = s.cmdr := rfl
@[simp] theorem State.clearWerr_errCmd : (s.clearWerr).errCmd = s.errCmd := rfl
@[simp] theorem State.clearWerr_answer : (s.clearWerr).answer = s.answer := rfl
@[simp] theorem State.clearWerr_schedule : (s.clearWerr).schedule = s.schedule := rfl
@[simp] theorem State.clearWerr_draws : (s.clearWerr).draws = s.draws := rfl

end Sys2Proof.Machine
end

