-- ==== Sys2Proof/Laws/Operands.lean ====
section
/-! SUPPORT. The laws of the register file and of the byte and word views of a register. -/

namespace Sys2Proof.Machine

@[simp] theorem QFile.get_set_same (f : QFile) (r : QReg) (v : Big) : (f.set r v).get r = v := by
  cases r <;> rfl

theorem QFile.get_set_ne (f : QFile) {r t : QReg} (v : Big) (h : t ≠ r) : (f.set r v).get t = f.get t := by
  cases r <;> cases t <;> first | rfl | exact absurd rfl h

theorem QFile.get_set (f : QFile) (r t : QReg) (v : Big) : (f.set r v).get t = if t = r then v else f.get t := by
  split
  · rename_i h; rw [h, QFile.get_set_same]
  · exact QFile.get_set_ne f v ‹_›

/-- Two files with the same registers are the same: a file is its eight registers. -/
theorem QFile.ext_get {f g : QFile} (h : ∀ r, f.get r = g.get r) : f = g := by
  have eta : ∀ f : QFile,
      f = ⟨f.get .q0, f.get .q1, f.get .q2, f.get .q3, f.get .q4, f.get .q5, f.get .q6, f.get .q7⟩ := fun _ => rfl
  rw [eta f, eta g]
  simp only [h]

/-- What `Q[r] <- v` can do: register `r` holds `v`, and nothing else changes. -/
theorem State.writeQ_spec (s : State) (r : QReg) (v : Big) :
    (s.writeQ r v).readQ r = v ∧ (∀ t, t ≠ r → (s.writeQ r v).readQ t = s.readQ t) ∧
      s.writeQ r v = s.setQ (s.writeQ r v).q :=
  ⟨QFile.get_set_same _ _ _, fun _ h => QFile.get_set_ne _ _ h, rfl⟩

@[simp] theorem State.readQ_writeQ_same (s : State) (r : QReg) (v : Big) : (s.writeQ r v).readQ r = v :=
  QFile.get_set_same _ _ _

theorem State.readQ_writeQ_ne (s : State) {r t : QReg} (v : Big) (h : t ≠ r) : (s.writeQ r v).readQ t = s.readQ t :=
  QFile.get_set_ne _ _ h

@[simp] theorem State.writeQ_q (s : State) (r : QReg) (v : Big) : (s.writeQ r v).q = s.q.set r v := rfl
@[simp] theorem State.writeQ_buf (s : State) (r : QReg) (v : Big) : (s.writeQ r v).buf = s.buf := rfl
@[simp] theorem State.writeQ_blen (s : State) (r : QReg) (v : Big) : (s.writeQ r v).blen = s.blen := rfl
@[simp] theorem State.writeQ_crc (s : State) (r : QReg) (v : Big) : (s.writeQ r v).crc = s.crc := rfl
@[simp] theorem State.writeQ_ie (s : State) (r : QReg) (v : Big) : (s.writeQ r v).ie = s.ie := rfl
@[simp] theorem State.writeQ_busy (s : State) (r : QReg) (v : Big) : (s.writeQ r v).busy = s.busy := rfl
@[simp] theorem State.writeQ_done (s : State) (r : QReg) (v : Big) : (s.writeQ r v).done = s.done := rfl
@[simp] theorem State.writeQ_err (s : State) (r : QReg) (v : Big) : (s.writeQ r v).err = s.err := rfl
@[simp] theorem State.writeQ_werr (s : State) (r : QReg) (v : Big) : (s.writeQ r v).werr = s.werr := rfl
@[simp] theorem State.writeQ_cmp (s : State) (r : QReg) (v : Big) : (s.writeQ r v).cmp = s.cmp := rfl
@[simp] theorem State.writeQ_errCode (s : State) (r : QReg) (v : Big) : (s.writeQ r v).errCode = s.errCode := rfl
@[simp] theorem State.writeQ_cmdr (s : State) (r : QReg) (v : Big) : (s.writeQ r v).cmdr = s.cmdr := rfl
@[simp] theorem State.writeQ_errCmd (s : State) (r : QReg) (v : Big) : (s.writeQ r v).errCmd = s.errCmd := rfl
@[simp] theorem State.writeQ_answer (s : State) (r : QReg) (v : Big) : (s.writeQ r v).answer = s.answer := rfl
@[simp] theorem State.writeQ_schedule (s : State) (r : QReg) (v : Big) : (s.writeQ r v).schedule = s.schedule := rfl
@[simp] theorem State.writeQ_draws (s : State) (r : QReg) (v : Big) : (s.writeQ r v).draws = s.draws := rfl

/-! Bytes and words of a register. -/

/-- The bits of a byte of a register: byte 0 is the most significant (R6). -/
theorem getLsbD_bigByte (v : Big) (i n : Nat) :
    (bigByte v i).getLsbD n = (decide (n < 8) && v.getLsbD (8 * (15 - i) + n)) := by
  simp [bigByte, BitVec.getLsbD_extractLsb']

/-- The bits of a register after one of its bytes is replaced. -/
theorem getLsbD_setBigByte (v : Big) {i : Nat} (hi : i < 16) (b : Byte) (n : Nat) :
    (setBigByte v i b).getLsbD n =
      if 8 * (15 - i) ≤ n ∧ n < 8 * (15 - i) + 8 then b.getLsbD (n - 8 * (15 - i)) else v.getLsbD n := by
  simp only [setBigByte, BitVec.getLsbD_or, BitVec.getLsbD_and, BitVec.getLsbD_not, BitVec.getLsbD_shiftLeft,
    BitVec.getLsbD_setWidth]
  have hff : ∀ k, (0xFF : Big).getLsbD k = decide (k < 8) := by
    intro k
    by_cases hk : k < 128
    · have : ∀ k : Fin 128, (0xFF : Big).getLsbD k.val = decide (k.val < 8) := by decide
      exact this ⟨k, hk⟩
    · rw [BitVec.getLsbD_of_ge _ _ (by omega)]
      simp; omega
  rw [hff]
  split
  · simp (disch := omega) [decide_eq_true, decide_eq_false]
  · rcases Nat.lt_or_ge n 128 with hn | hn
    · rcases Nat.lt_or_ge n (8 * (15 - i)) with h | h <;> simp (disch := omega) [decide_eq_true, decide_eq_false]
    · simp (disch := omega) [decide_eq_false]

/-- Replacing a byte replaces that byte and no other. -/
theorem bigByte_setBigByte (v : Big) {i : Nat} (hi : i < 16) {j : Nat} (hj : j < 16) (b : Byte) :
    bigByte (setBigByte v i b) j = if j = i then b else bigByte v j := by
  refine BitVec.eq_of_getLsbD_eq fun n hn => ?_
  rw [getLsbD_bigByte, getLsbD_setBigByte v hi]
  by_cases h : j = i
  · subst h
    rw [if_pos (by omega), if_pos rfl]
    simp [hn]
  · rw [if_neg (by omega), if_neg h, getLsbD_bigByte]

/-- Two registers with the same bytes hold the same integer (R6). -/
theorem big_ext_bytes {v w : Big} (h : ∀ i, i < 16 → bigByte v i = bigByte w i) : v = w := by
  refine BitVec.eq_of_getLsbD_eq fun n hn => ?_
  have h1 := congrArg (fun b => BitVec.getLsbD b (n % 8)) (h (15 - n / 8) (by omega))
  simp only [getLsbD_bigByte, show n % 8 < 8 by omega, decide_true, Bool.true_and,
    show 8 * (15 - (15 - n / 8)) + n % 8 = n by omega] at h1
  exact h1

/-- A host write of window word `j` replaces bytes `4j .. 4j+3` and no other (R45). -/
theorem bigByte_setBigWord (v : Big) {j : Nat} (hj : j < 4) (d : Word) {i : Nat} (hi : i < 16) :
    bigByte (setBigWord v j d) i = if i / 4 = j then byteOf d (i % 4) else bigByte v i := by
  simp (disch := omega) only [setBigWord, bigByte_setBigByte]
  repeat' split
  all_goals first
    | omega
    | rfl
    | exact congrArg (byteOf d) (by omega)

/-- A written window word reads back (R45). -/
theorem bigWord_setBigWord_same (v : Big) {j : Nat} (hj : j < 4) (d : Word) : bigWord (setBigWord v j d) j = d := by
  have byte : ∀ k < 4, bigByte (setBigWord v j d) (4 * j + k) = byteOf d k := fun k hk => by
    rw [bigByte_setBigWord v hj d (by omega), if_pos (by omega), Nat.mul_add_mod, Nat.mod_eq_of_lt hk]
  change le32 (bigByte _ (4 * j + 0)) _ _ _ = d
  simp (disch := decide) only [byte]
  exact le32_byteOf d

/-- A window word write leaves the register's other words alone (R45). -/
theorem bigWord_setBigWord_ne (v : Big) {j : Nat} (hj : j < 4) {l : Nat} (hl : l < 4) (h : l ≠ j) (d : Word) :
    bigWord (setBigWord v j d) l = bigWord v l := by
  have byte : ∀ k < 4, bigByte (setBigWord v j d) (4 * l + k) = bigByte v (4 * l + k) := fun k hk => by
    rw [bigByte_setBigWord v hj d (by omega), if_neg (by omega)]
  change le32 (bigByte _ (4 * l + 0)) _ _ _ = le32 (bigByte _ (4 * l + 0)) _ _ _
  simp (disch := decide) only [byte]

end Sys2Proof.Machine
end

