-- ==== Sys2Proof/Laws/PerInstr.lean ====
section
/-! SUPPORT. The family of per-instruction lemmas named in LAWS.json: the fields of every encoded command. -/

namespace Sys2Proof.Laws.EncodedFields

/-- The opcode of a command (R73). -/
def opcode : Instr → Nat
  | .biAdd _ _ _ => 0x10
  | .biShl1 _ _ => 0x11
  | .biShr1 _ _ => 0x12
  | .biCmp _ _ => 0x13
  | .biFix _ _ _ => 0x14
  | .mxMulmod _ _ _ _ => 0x20
  | .mxModexp _ _ _ _ => 0x21
  | .bcEnc _ => 0x30
  | .bcDec _ => 0x31
  | .crcInit => 0x40
  | .crcUpd => 0x41

/-- The register fields `(RD, RS1, RS2, RM)` of a command; 0 for one it does not use (R73, R74). -/
def regs : Instr → Nat × Nat × Nat × Nat
  | .biAdd d s1 s2 => (d.index, s1.index, s2.index, 0)
  | .biShl1 d s1 => (d.index, s1.index, 0, 0)
  | .biShr1 d s1 => (d.index, s1.index, 0, 0)
  | .biCmp s1 s2 => (0, s1.index, s2.index, 0)
  | .biFix d s1 m => (d.index, s1.index, 0, m.index)
  | .mxMulmod d s1 s2 m => (d.index, s1.index, s2.index, m.index)
  | .mxModexp d s1 s2 m => (d.index, s1.index, s2.index, m.index)
  | .bcEnc k => (0, k.index, 0, 0)
  | .bcDec k => (0, k.index, 0, 0)
  | .crcInit => (0, 0, 0, 0)
  | .crcUpd => (0, 0, 0, 0)

/-- The fields of the encoded word are the opcode, the register fields and `Z = 0` (R71, R74). -/
def Statement (i : Instr) : Prop :=
  (fieldOp (encode i)).toNat = opcode i ∧ (fieldRd (encode i)).toNat = (regs i).1 ∧
    (fieldRs1 (encode i)).toNat = (regs i).2.1 ∧ (fieldRs2 (encode i)).toNat = (regs i).2.2.1 ∧
    (fieldRm (encode i)).toNat = (regs i).2.2.2 ∧ (fieldZ (encode i)).toNat = 0

theorem code_lt (r : QReg) : r.code.toNat < 2 ^ 4 := Nat.lt_trans r.code_lt (by decide)

theorem zero_lt : (0 : Word).toNat < 2 ^ 4 := by decide

theorem biAdd (d s1 s2 : QReg) : Statement (.biAdd d s1 s2) := by
  simpa [Statement, encode, opcode, regs, QReg.code_toNat] using fields_encodeWord (op := 0x10) (by decide) (code_lt d) (code_lt s1) (code_lt s2) zero_lt
theorem biShl1 (d s1 : QReg) : Statement (.biShl1 d s1) := by
  simpa [Statement, encode, opcode, regs, QReg.code_toNat] using fields_encodeWord (op := 0x11) (by decide) (code_lt d) (code_lt s1) zero_lt zero_lt
theorem biShr1 (d s1 : QReg) : Statement (.biShr1 d s1) := by
  simpa [Statement, encode, opcode, regs, QReg.code_toNat] using fields_encodeWord (op := 0x12) (by decide) (code_lt d) (code_lt s1) zero_lt zero_lt
theorem biCmp (s1 s2 : QReg) : Statement (.biCmp s1 s2) := by
  simpa [Statement, encode, opcode, regs, QReg.code_toNat] using fields_encodeWord (op := 0x13) (by decide) zero_lt (code_lt s1) (code_lt s2) zero_lt
theorem biFix (d s1 m : QReg) : Statement (.biFix d s1 m) := by
  simpa [Statement, encode, opcode, regs, QReg.code_toNat] using fields_encodeWord (op := 0x14) (by decide) (code_lt d) (code_lt s1) zero_lt (code_lt m)
theorem mxMulmod (d s1 s2 m : QReg) : Statement (.mxMulmod d s1 s2 m) := by
  simpa [Statement, encode, opcode, regs, QReg.code_toNat] using fields_encodeWord (op := 0x20) (by decide) (code_lt d) (code_lt s1) (code_lt s2) (code_lt m)
theorem mxModexp (d s1 s2 m : QReg) : Statement (.mxModexp d s1 s2 m) := by
  simpa [Statement, encode, opcode, regs, QReg.code_toNat] using fields_encodeWord (op := 0x21) (by decide) (code_lt d) (code_lt s1) (code_lt s2) (code_lt m)
theorem bcEnc (k : QReg) : Statement (.bcEnc k) := by
  simpa [Statement, encode, opcode, regs, QReg.code_toNat] using fields_encodeWord (op := 0x30) (by decide) zero_lt (code_lt k) zero_lt zero_lt
theorem bcDec (k : QReg) : Statement (.bcDec k) := by
  simpa [Statement, encode, opcode, regs, QReg.code_toNat] using fields_encodeWord (op := 0x31) (by decide) zero_lt (code_lt k) zero_lt zero_lt
theorem crcInit : Statement .crcInit := by
  simpa [Statement, encode, opcode, regs] using fields_encodeWord (op := 0x40) (by decide) zero_lt zero_lt zero_lt zero_lt
theorem crcUpd : Statement .crcUpd := by
  simpa [Statement, encode, opcode, regs] using fields_encodeWord (op := 0x41) (by decide) zero_lt zero_lt zero_lt zero_lt

end Sys2Proof.Laws.EncodedFields
end

