-- ==== Sys2Proof/Laws/Step.lean ====
section
/-! SUPPORT. Inversion lemmas: for each shared operation and for the step, everything it can do, said once. -/

namespace Sys2Proof.Machine

open Sys2Proof.Safety

/-! Issue. -/

theorem checkIssue_eq_ok {w blen : Word} {i : Instr} :
    checkIssue w blen = .ok i ↔ decode w = .ok i ∧ acceptable i blen = true := by
  unfold checkIssue
  cases h : decode w with
  | error e => simp
  | ok j =>
    by_cases ha : acceptable j blen = true
    · simp only [ha, if_true, Except.ok.injEq]
      constructor
      · rintro rfl; exact ⟨rfl, ha⟩
      · exact fun h => h.1
    · simp only [ha, Except.ok.injEq]
      constructor
      · intro h; cases h
      · rintro ⟨rfl, h⟩; exact absurd h ha

/-- Why a word is rejected: its decoding, or its length. -/
theorem checkIssue_eq_error {w blen : Word} {e : CmdError} :
    checkIssue w blen = .error e ↔
      decode w = .error e ∨ (e = .badLength ∧ ∃ i, decode w = .ok i ∧ acceptable i blen = false) := by
  unfold checkIssue
  cases h : decode w with
  | error e' => simp
  | ok j =>
    by_cases ha : acceptable j blen = true
    · simp [ha]
    · simp only [ha]
      constructor
      · intro h
        cases h
        exact .inr ⟨rfl, j, rfl, by simpa using ha⟩
      · rintro (h | ⟨rfl, -⟩)
        · cases h
        · rfl

/-- What an issue attempt can do (R166, R177). -/
theorem State.issue_cases (w : Word) (s : State) :
    (s.busy = true ∧ s.issue w = s.dropWrite) ∨
    (s.busy = false ∧ ∃ e, checkIssue w s.blen = .error e ∧ s.issue w = s.reject e w) ∨
    (s.busy = false ∧ ∃ i, checkIssue w s.blen = .ok i ∧ s.issue w = s.accept w) := by
  unfold State.issue
  cases hb : s.busy with
  | true => exact .inl ⟨rfl, rfl⟩
  | false =>
    refine .inr ?_
    cases h : checkIssue w s.blen with
    | error e => exact .inl ⟨rfl, e, rfl, rfl⟩
    | ok i => exact .inr ⟨rfl, i, rfl, rfl⟩

/-- What the host's write of STATUS does, field by field (R171). -/
theorem State.writeStatus_eq (d : Word) (s : State) :
    s.writeStatus d =
      { s with
        done := s.done && !d.getLsbD 1
        err := s.err && !d.getLsbD 2
        errCode := if d.getLsbD 2 then 0 else s.errCode
        errCmd := if d.getLsbD 2 then 0 else s.errCmd
        werr := s.werr && !d.getLsbD 3 } := by
  unfold State.writeStatus State.clearDone State.clearError State.clearWerr
  cases d.getLsbD 1 <;> cases d.getLsbD 2 <;> cases d.getLsbD 3 <;> simp

/-! The port. -/

/-- A bad offset names nothing, and no other offset does (R41, R44). -/
theorem windowTarget_eq_none_iff (off : Offset) : windowTarget off = none ↔ badOffset off := by
  have hlt := off.isLt
  simp only [windowTarget, badOffset]
  by_cases h0 : off.toNat % 4 = 0
  · simp only [h0, ne_eq, not_true_eq_false, if_false, false_or]
    repeat' split
    all_goals try simp only [reduceCtorEq, false_iff, true_iff]
    all_goals try omega
    rename_i hq
    rw [show (off.toNat - 128) / 16 = (off.toNat - 128) / 16 from rfl] at hq
    exfalso
    have : (off.toNat - 128) / 16 < 8 := by omega
    generalize (off.toNat - 128) / 16 = n at hq this
    match n with
    | 0 | 1 | 2 | 3 | 4 | 5 | 6 | 7 => cases hq
    | n + 8 => omega
  · simp [h0]

/-- What a host read can do (R41, R51). -/
theorem State.hostRead_cases (off : Offset) (s : State) :
    (windowTarget off = none ∧ s.hostRead off = s.respond .busError) ∨
    (∃ t, windowTarget off = some t ∧ s.busy = true ∧ t.readUnspecified = true ∧
      s.hostRead off = (s.respond (.data (Config.busyReadValue s.draws))).draw) ∨
    (∃ t, windowTarget off = some t ∧ (s.busy = false ∨ t.readUnspecified = false) ∧
      s.hostRead off = s.respond (.data (s.targetWord t))) := by
  unfold State.hostRead
  cases h : windowTarget off with
  | none => exact .inl ⟨rfl, rfl⟩
  | some t =>
    refine .inr ?_
    cases hb : s.busy <;> cases hr : t.readUnspecified <;> simp_all

/-- What a host write can do (R42, R50). -/
theorem State.hostWrite_cases (off : Offset) (d : Word) (s : State) :
    (windowTarget off = none ∧ s.hostWrite off d = s.respond .busError) ∨
    (∃ t, windowTarget off = some t ∧ s.busy = true ∧ t.writeLocked = true ∧
      s.hostWrite off d = s.dropWrite.respond .ok) ∨
    (∃ t, windowTarget off = some t ∧ (s.busy = false ∨ t.writeLocked = false) ∧
      s.hostWrite off d = (s.writeTarget t d).respond .ok) := by
  unfold State.hostWrite
  cases h : windowTarget off with
  | none => exact .inl ⟨rfl, rfl⟩
  | some t =>
    refine .inr ?_
    cases hb : s.busy <;> cases hr : t.writeLocked <;> simp_all

/-! Reset. -/

@[simp] theorem State.resetControl_q (s : State) : s.resetControl.q = s.q := rfl
@[simp] theorem State.resetControl_buf (s : State) : s.resetControl.buf = s.buf := rfl
@[simp] theorem State.resetControl_blen (s : State) : s.resetControl.blen = State.reset.blen := rfl
@[simp] theorem State.resetControl_crc (s : State) : s.resetControl.crc = State.reset.crc := rfl
@[simp] theorem State.resetControl_ie (s : State) : s.resetControl.ie = State.reset.ie := rfl
@[simp] theorem State.resetControl_busy (s : State) : s.resetControl.busy = State.reset.busy := rfl
@[simp] theorem State.resetControl_done (s : State) : s.resetControl.done = State.reset.done := rfl
@[simp] theorem State.resetControl_err (s : State) : s.resetControl.err = State.reset.err := rfl
@[simp] theorem State.resetControl_werr (s : State) : s.resetControl.werr = State.reset.werr := rfl
@[simp] theorem State.resetControl_cmp (s : State) : s.resetControl.cmp = State.reset.cmp := rfl
@[simp] theorem State.resetControl_errCode (s : State) : s.resetControl.errCode = State.reset.errCode := rfl
@[simp] theorem State.resetControl_cmdr (s : State) : s.resetControl.cmdr = State.reset.cmdr := rfl
@[simp] theorem State.resetControl_errCmd (s : State) : s.resetControl.errCmd = State.reset.errCmd := rfl
@[simp] theorem State.resetControl_answer (s : State) : s.resetControl.answer = s.answer := rfl
@[simp] theorem State.resetControl_schedule (s : State) : s.resetControl.schedule = s.schedule := rfl
@[simp] theorem State.resetControl_draws (s : State) : s.resetControl.draws = s.draws := rfl

/-- What abandoning a command can leave unspecified (R212). -/
theorem State.abandon_cases (i : Instr) (s : State) :
    (∃ d, destQ i = some d ∧ writesBuf i = false ∧ s.abandon i = s.abandonQ d) ∨
    (destQ i = none ∧ writesBuf i = true ∧ s.abandon i = s.abandonBuf) ∨
    (destQ i = none ∧ writesBuf i = false ∧ s.abandon i = s) := by
  cases i <;> simp [State.abandon, destQ, writesBuf]

/-- What a reset can do (R210 to R212). -/
theorem State.applyReset_cases (s : State) :
    (s.busy = false ∧ s.applyReset = s.resetControl) ∨
    (s.busy = true ∧ ∃ i, decode s.cmdr = .ok i ∧ s.applyReset = (s.abandon i).resetControl) ∨
    (s.busy = true ∧ ∃ e, decode s.cmdr = .error e ∧ s.applyReset = s.resetControl) := by
  unfold State.applyReset
  cases hb : s.busy with
  | false => exact .inl ⟨rfl, rfl⟩
  | true =>
    cases h : decode s.cmdr with
    | ok i => exact .inr (.inl ⟨rfl, i, rfl, rfl⟩)
    | error e => exact .inr (.inr ⟨rfl, e, rfl, rfl⟩)

/-- Filling BUF with drawn bytes keeps the canonical form. -/
theorem memFill_all_wf (f : Nat → Byte) : Memory.wf (memFill f Config.bufBytes []) = true :=
  memFill_wf memory_nil_wf f (Nat.le_refl Config.bufBytes)

/-- Everything power-on can do (R13, R14, R210): some register file, some BUF in canonical form, the control state reset. -/
theorem State.powerOn_cases (s : State) :
    ∃ f m, Memory.wf m = true ∧ s.powerOn = ((s.setQ f).setBuf m).draw.resetControl :=
  ⟨_, _, memFill_all_wf _, rfl⟩

/-! Commands. -/

/-- Everything a command can do when it answers a next state: it writes one register, or `CMP`, or BUF below BLEN, or
CRC. -/
theorem exec_cases {i : Instr} {s t : State} (h : exec i s = .next t) :
    (∃ d v, destQ i = some d ∧ writesBuf i = false ∧ t = s.writeQ d v) ∨
    (∃ a b, i = .biCmp a b ∧ t = s.setCmp (cmpCode (s.readQ a) (s.readQ b))) ∨
    (∃ k, i = .bcEnc k ∧ cipherLengthOk s.blen.toNat = true ∧
      t = s.setBuf (encBuffer (keyWords (s.readQ k)) s.blen.toNat s.buf)) ∨
    (∃ k, i = .bcDec k ∧ cipherLengthOk s.blen.toNat = true ∧
      t = s.setBuf (decBuffer (keyWords (s.readQ k)) s.blen.toNat s.buf)) ∨
    (i = .crcInit ∧ t = s.setCrc crc0) ∨
    (i = .crcUpd ∧ crcLengthOk s.blen.toNat = true ∧
      t = s.setCrc (crcUpdate s.crc (memBytes s.buf 0 s.blen.toNat))) := by
  cases i with
  | biAdd d s1 s2 => cases h; exact .inl ⟨d, _, rfl, rfl, rfl⟩
  | biShl1 d s1 => cases h; exact .inl ⟨d, _, rfl, rfl, rfl⟩
  | biShr1 d s1 => cases h; exact .inl ⟨d, _, rfl, rfl, rfl⟩
  | biCmp a b => cases h; exact .inr (.inl ⟨a, b, rfl, rfl⟩)
  | biFix d s1 m => cases h; exact .inl ⟨d, _, rfl, rfl, rfl⟩
  | mxMulmod d s1 s2 m => cases h; exact .inl ⟨d, _, rfl, rfl, rfl⟩
  | mxModexp d s1 s2 m => cases h; exact .inl ⟨d, _, rfl, rfl, rfl⟩
  | bcEnc k =>
    simp only [exec, execBcEnc] at h
    split at h
    · cases h; exact .inr (.inr (.inl ⟨k, rfl, ‹_›, rfl⟩))
    · cases h
  | bcDec k =>
    simp only [exec, execBcDec] at h
    split at h
    · cases h; exact .inr (.inr (.inr (.inl ⟨k, rfl, ‹_›, rfl⟩)))
    · cases h
  | crcInit => cases h; exact .inr (.inr (.inr (.inr (.inl ⟨rfl, rfl⟩))))
  | crcUpd =>
    simp only [exec, execCrcUpd] at h
    split at h
    · cases h; exact .inr (.inr (.inr (.inr (.inr ⟨rfl, ‹_›, rfl⟩))))
    · cases h

/-- A finished outcome that is a next state came from a next state (R168). -/
theorem finishOutcome_eq_next {o : Host.Outcome State Fault Refusal} {t : State} (h : finishOutcome o = .next t) :
    ∃ u, o = .next u ∧ t = u.finish := by
  cases o <;> cases h
  exact ⟨_, rfl, rfl⟩

/-- What the engine's turn can do when it answers a next state (R168, R176). -/
theorem engineTurn_cases {s t : State} (h : engineTurn s = .next t) :
    (s.busy = false ∧ t = s) ∨
    (s.busy = true ∧ ∃ i u, decode s.cmdr = .ok i ∧ exec i s = .next u ∧ t = u.finish) := by
  simp only [engineTurn] at h
  by_cases held : s.busy = true
  · rw [if_pos held] at h
    split at h
    · obtain ⟨u, performed, rfl⟩ := finishOutcome_eq_next h
      exact .inr ⟨held, _, u, ‹_›, performed, rfl⟩
    · cases h
  · rw [if_neg held] at h
    exact .inl ⟨by simpa using held, by cases h; rfl⟩

/-- Everything a step can do when it answers a next state (R9). -/
theorem step_cases {s t : State} (h : step s = .next t) :
    (s.schedule = [] ∧ engineTurn s = .next t) ∨
    (∃ es, s.schedule = .engine :: es ∧ engineTurn (s.setSchedule es) = .next t) ∨
    (∃ off es, s.schedule = .read off :: es ∧ t = (s.setSchedule es).hostRead off) ∨
    (∃ off d es, s.schedule = .write off d :: es ∧ t = (s.setSchedule es).hostWrite off d) ∨
    (∃ es, s.schedule = .reset :: es ∧ t = (s.setSchedule es).applyReset) ∨
    (∃ es, s.schedule = .powerOn :: es ∧ t = (s.setSchedule es).powerOn) := by
  unfold step at h
  split at h
  · exact .inl ⟨‹_›, h⟩
  · exact .inr (.inl ⟨_, ‹_›, h⟩)
  · cases h; exact .inr (.inr (.inl ⟨_, _, ‹_›, rfl⟩))
  · cases h; exact .inr (.inr (.inr (.inl ⟨_, _, _, ‹_›, rfl⟩)))
  · cases h; exact .inr (.inr (.inr (.inr (.inl ⟨_, ‹_›, rfl⟩))))
  · cases h; exact .inr (.inr (.inr (.inr (.inr ⟨_, ‹_›, rfl⟩))))

/-! One event, as an equation: for going forward. -/

theorem windowTarget_ctrl : windowTarget 0x0000 = some .ctrl := by decide
theorem windowTarget_status : windowTarget 0x0004 = some .status := by decide
theorem windowTarget_cmd : windowTarget 0x0008 = some .cmd := by decide
theorem windowTarget_blen : windowTarget 0x000C = some .blen := by decide
theorem windowTarget_crc : windowTarget 0x0010 = some .crc := by decide
theorem windowTarget_errCmd : windowTarget 0x0014 = some .errCmd := by decide

/-- A scheduled write of a mapped offset (R42, R50). -/
theorem step_of_write {s : State} {off : Offset} {d : Word} {es : List Event} {t : Target}
    (hs : s.schedule = .write off d :: es) (ht : windowTarget off = some t) :
    step s = .next ((if s.busy && t.writeLocked then (s.setSchedule es).dropWrite
      else (s.setSchedule es).writeTarget t d).respond .ok) := by
  simp only [step, hs, State.hostWrite, ht]
  rfl

/-- A scheduled read of a mapped offset (R41, R51). -/
theorem step_of_read {s : State} {off : Offset} {es : List Event} {t : Target}
    (hs : s.schedule = .read off :: es) (ht : windowTarget off = some t) :
    step s = .next (if s.busy && t.readUnspecified
      then ((s.setSchedule es).respond (.data (Config.busyReadValue s.draws))).draw
      else (s.setSchedule es).respond (.data ((s.setSchedule es).targetWord t))) := by
  simp only [step, hs, State.hostRead, ht]
  rfl

/-- A scheduled write of a bad offset (R191). -/
theorem step_of_bad_write {s : State} {off : Offset} {d : Word} {es : List Event}
    (hs : s.schedule = .write off d :: es) (ht : windowTarget off = none) :
    step s = .next ((s.setSchedule es).respond .busError) := by
  simp only [step, hs, State.hostWrite, ht]

/-- A scheduled read of a bad offset (R191). -/
theorem step_of_bad_read {s : State} {off : Offset} {es : List Event}
    (hs : s.schedule = .read off :: es) (ht : windowTarget off = none) :
    step s = .next ((s.setSchedule es).respond .busError) := by
  simp only [step, hs, State.hostRead, ht]

/-- What no command changes, whatever it does (R166, R168). -/
theorem exec_keeps {i : Instr} {s u : State} (h : exec i s = .next u) :
    u.ie = s.ie ∧ u.err = s.err ∧ u.errCode = s.errCode ∧ u.errCmd = s.errCmd ∧ u.werr = s.werr ∧ u.blen = s.blen ∧
      u.cmdr = s.cmdr ∧ u.schedule = s.schedule ∧ u.draws = s.draws ∧ u.answer = s.answer ∧ u.busy = s.busy ∧
      u.done = s.done := by
  rcases exec_cases h with ⟨d, v, _, _, rfl⟩ | ⟨a, b, _, rfl⟩ | ⟨a, _, _, rfl⟩ | ⟨a, _, _, rfl⟩ | ⟨_, rfl⟩ | ⟨_, _, rfl⟩ <;>
    simp

/-- A command that is acceptable completes (R168). -/
theorem exec_next {i : Instr} {s : State} (ha : acceptable i s.blen = true) : ∃ u, exec i s = .next u := by
  cases i <;>
    first
    | exact ⟨_, rfl⟩
    | (simp only [acceptable] at ha; exact ⟨_, if_pos ha⟩)

/-- A flag in a word: its bit, and every other bit 0. -/
theorem flagAt_bit (b : Bool) (k i : Nat) (hk : k < 32) : (flagAt b k).getLsbD i = (decide (i = k) && b) := by
  simp only [flagAt, BitVec.getLsbD_shiftLeft, BitVec.getLsbD_setWidth, BitVec.getLsbD_ofBool]
  by_cases h : i = k
  · subst h; simp [hk]
  · by_cases h2 : i < k <;> simp [h, h2]; omega

/-- The offset of a Q word names it (R44). -/
theorem windowTarget_qOffset (r : QReg) {j : Nat} (hj : j < 4) :
    windowTarget (qOffset r j) = some (.qWord r ⟨j, hj⟩) := by
  have h : ∀ j : Fin 4, windowTarget (qOffset r j.val) = some (.qWord r j) := by cases r <;> decide
  exact h ⟨j, hj⟩

/-- The offset a target stands at (R44). -/
def Target.offset : Target → Nat
  | .ctrl => 0x0000
  | .status => 0x0004
  | .cmd => 0x0008
  | .blen => 0x000C
  | .crc => 0x0010
  | .errCmd => 0x0014
  | .qWord r j => 0x0080 + 16 * r.index + 4 * j.val
  | .bufWord w => 0x1000 + 4 * w.val

/-- A target stands at one offset only (R44). -/
theorem windowTarget_offset {off : Offset} {t : Target} (h : windowTarget off = some t) : off.toNat = t.offset := by
  have hlt := off.isLt
  simp only [windowTarget] at h
  repeat' split at h
  all_goals try cases h
  all_goals try (simp only [Target.offset]; assumption)
  · rename_i r hr
    have := QReg.index_of_ofIndex hr
    simp only [Target.offset, Fin.ofNat, this]
    omega
  · simp only [Target.offset, Fin.ofNat]
    omega

/-- The offset of a BUF word names it (R44): it is no bad offset, and every target but that word stands elsewhere. -/
theorem windowTarget_bufOffset {w : Nat} (hw : w < 1024) : windowTarget (bufOffset w) = some (.bufWord ⟨w, hw⟩) := by
  have place : (bufOffset w).toNat = 0x1000 + 4 * w := by
    simp only [bufOffset, BitVec.toNat_ofNat]; omega
  obtain ⟨t, ht⟩ : ∃ t, windowTarget (bufOffset w) = some t := by
    refine Option.ne_none_iff_exists'.1 fun hbad => ?_
    have := (windowTarget_eq_none_iff _).1 hbad
    simp only [badOffset, place] at this
    omega
  have stands := (windowTarget_offset ht).symm.trans place
  rw [ht]
  cases t with
  | bufWord v =>
    simp only [Target.offset] at stands
    obtain rfl : v = ⟨w, hw⟩ := Fin.ext (show v.val = w by omega)
    rfl
  | qWord r j => have := r.index_lt; simp only [Target.offset] at stands; omega
  | _ => simp only [Target.offset] at stands; omega

/-- Two offsets with one target are one offset. -/
theorem windowTarget_inj {off off' : Offset} {t : Target} (h : windowTarget off = some t) (h' : windowTarget off' = some t) :
    off = off' :=
  BitVec.eq_of_toNat_eq ((windowTarget_offset h).trans (windowTarget_offset h').symm)

/-- Every command keeps the canonical form of BUF. -/
theorem exec_keeps_wf {i : Instr} {s u : State} (h : exec i s = .next u) (hm : s.buf.wf = true) : u.buf.wf = true := by
  rcases exec_cases h with ⟨d, v, _, _, rfl⟩ | ⟨a, b, rfl, rfl⟩ | ⟨k, rfl, hk, rfl⟩ | ⟨k, rfl, hk, rfl⟩ | ⟨_, rfl⟩ | ⟨_, _, rfl⟩
  · exact hm
  · exact hm
  · exact encBuffer_wf _ hk hm
  · exact decBuffer_wf _ hk hm
  · exact hm
  · exact hm

/-- A step of a nonempty schedule takes its first event (R52). -/
theorem step_schedule {s t : State} {e es} (hs : s.schedule = e :: es)
    (h : step s = .next t) : t.schedule = es := by
  rcases step_cases h with ⟨hs', h⟩ | ⟨es', hs', h⟩ | ⟨off, es', hs', rfl⟩ | ⟨off, d, es', hs', rfl⟩ | ⟨es', hs', rfl⟩ | ⟨es', hs', rfl⟩
  all_goals rw [hs] at hs'; cases hs'
  · rcases engineTurn_cases h with ⟨_, rfl⟩ | ⟨hb', i, u, hd, hx, rfl⟩
    · rfl
    · exact (exec_keeps hx).2.2.2.2.2.2.2.1
  · rcases State.hostRead_cases off (s.setSchedule es) with ⟨_, h⟩ | ⟨t, _, _, _, h⟩ | ⟨t, _, _, h⟩ <;> simp [h]
  · rcases State.hostWrite_cases off d (s.setSchedule es) with ⟨_, h⟩ | ⟨t, _, _, _, h⟩ | ⟨t, ht, hl, h⟩
    · simp [h]
    · simp [h]
    · rw [h]
      cases t with
      | cmd =>
        simp only [State.writeTarget]
        rcases State.issue_cases d (s.setSchedule es) with ⟨_, h⟩ | ⟨hb, e, he, h⟩ | ⟨_, i, hi, h⟩ <;> simp [h]
      | _ => simp [State.writeTarget, State.writeStatus_eq]
  · rcases State.applyReset_cases (s.setSchedule es) with ⟨hb, h⟩ | ⟨hb, i, hd, h⟩ | ⟨hb, e, hd, h⟩
    · simp [h]
    · rw [h]
      rcases State.abandon_cases i (s.setSchedule es) with ⟨d, h1, h2, h3⟩ | ⟨h1, h2, h3⟩ | ⟨h1, h2, h3⟩ <;> simp [h3, State.abandonQ, State.abandonBuf]
    · simp [h]
  · simp [State.powerOn]

/-! Runs. -/

/-- A run is its first step, then the rest. -/
theorem run_succ {n s t} (h : step s = .next t) : run (n+1) s = run n t := by
  have h' : Sys2Proof.core.step s = .next t := h
  simp only [run, Host.Core.run, h']; rfl

/-- A run that answers a next state had a first step that did (R9). -/
theorem run_succ_cases {n s t} (h : run (n+1) s = .next t) : ∃ u, step s = .next u ∧ run n u = .next t := by
  simp only [run, Host.Core.run] at h
  split at h
  · exact ⟨_, ‹_›, h⟩
  · cases h
  · cases h

/-- A run of `n + m` steps is a run of `n`, then one of `m`. -/
theorem run_add {n m s t} (h : run n s = .next t) : run (n + m) s = run m t := by
  induction n generalizing s with
  | zero => cases h; simp
  | succ n rest =>
    obtain ⟨u, first, later⟩ := run_succ_cases h
    rw [Nat.add_right_comm, run_succ first, rest later]

end Sys2Proof.Machine
end

