-- ==== Sys2Proof/Tests/Slice0.lean ====
section
/-! SUPPORT. Tests: the ill-formed words each check refuses, words written from the format, one step per command with the
values of `95_test_vectors.md` (named in each comment), and for every statement of the obligations that has hypotheses a
state and operands that meet them (`witness_<statement>`). -/

namespace Sys2Proof.Tests

open Sys2Proof.Machine Sys2Proof.Safety

/-- The next state, if there is one. -/
def nextOf : Host.Outcome State Fault Refusal → Option State
  | .next t => some t
  | .fault _ => none
  | .refused _ => none

/-- The machine after reset with events to come. -/
def idle (es : List Event) : State := { State.reset with schedule := es }

/-- The engine busy with a command. -/
def held (i : Instr) (blen : Word) (es : List Event) : State :=
  { State.reset with busy := true, cmdr := encode i, blen := blen, schedule := es }

/-- Q0, Q1, Q2 loaded. -/
def regs (a b c : Big) : State := { State.reset with q := ⟨a, b, c, 0, 0, 0, 0, 0⟩ }

/-- BUF from byte 0 on. -/
def bufOf (xs : List Byte) : Memory := xs.zipIdx.foldl (fun m x => memWrite m x.2 x.1) []

/-- Key K1 in Q4, BUF loaded, BLEN its length. -/
def cipherState (xs : List Byte) : State :=
  { State.reset with q := ⟨0, 0, 0, 0, 0x000102030405060708090A0B0C0D0E0F, 0, 0, 0⟩, buf := bufOf xs, blen := BitVec.ofNat 32 xs.length }

/-! ## Well-formed words: each check refuses an ill-formed one (R75 (a) to (d), section 2.3 of the vectors) -/

/-- (a) no opcode -/
theorem test_opcode_refused :
    decode 0x00000000 = .error .illegalOpcode ∧ decode 0x00000015 = .error .illegalOpcode ∧
      decode 0x000000FF = .error .illegalOpcode ∧ decode 0xFF0000EE = .error .illegalOpcode ∧ wellFormedWord 0 = false := by
  decide

/-- (b) `Z` -/
theorem test_z_refused :
    decode 0x01000010 = .error .reservedField ∧ decode 0x80000010 = .error .reservedField ∧
      decode 0x01000040 = .error .reservedField ∧ wellFormedWord 0x80000010 = false := by
  decide

/-- (c) an unused register field -/
theorem test_unused_field_refused :
    decode 0x00100010 = .error .reservedField ∧ decode 0x00010011 = .error .reservedField ∧
      decode 0x00100012 = .error .reservedField ∧ decode 0x00000113 = .error .reservedField ∧
      decode 0x00010014 = .error .reservedField ∧ decode 0x00000130 = .error .reservedField ∧
      decode 0x00100031 = .error .reservedField ∧ decode 0x00001040 = .error .reservedField ∧
      decode 0x00100041 = .error .reservedField ∧ wellFormedWord 0x00100041 = false := by
  decide

/-- (d) a used register field of 8 or more -/
theorem test_register_index_refused :
    decode 0x00000810 = .error .reservedField ∧ decode 0x00008010 = .error .reservedField ∧
      decode 0x00080010 = .error .reservedField ∧ decode 0x00800020 = .error .reservedField ∧
      decode 0x00F00021 = .error .reservedField ∧ decode 0x00008030 = .error .reservedField ∧
      wellFormedWord 0x00888820 = false := by
  decide

/-- No word is an instance of two rows. -/
theorem test_rows_disjoint : opRows.Pairwise fun r q => ((r.pattern ^^^ q.pattern) &&& (r.mask &&& q.mask)) ≠ 0 := by
  decide

/-- The encoder against words of section 2.1. -/
theorem test_encode :
    encode (.biAdd .q7 .q7 .q7) = 0x00077710 ∧ encode (.biShl1 .q5 .q6) = 0x00006511 ∧ encode (.biShr1 .q2 .q1) = 0x00001212 ∧
      encode (.biCmp .q5 .q6) = 0x00065013 ∧ encode (.biFix .q1 .q3 .q7) = 0x00703114 ∧
      encode (.mxMulmod .q3 .q0 .q1 .q2) = 0x00210320 ∧ encode (.mxModexp .q5 .q4 .q1 .q2) = 0x00214521 ∧
      encode (.bcEnc .q4) = 0x00004030 ∧ encode (.bcDec .q7) = 0x00007031 ∧ encode .crcInit = 0x00000040 ∧
      encode .crcUpd = 0x00000041 := by
  decide

/-- Words written field by field from R71 and R73 (`Z RM RS2 RS1 RD OP`), one per command. -/
theorem test_decode :
    decode 0b00000000_0000_0111_0010_0101_00010000 = .ok (.biAdd .q5 .q2 .q7) ∧
      decode 0b00000000_0000_0000_0011_0111_00010001 = .ok (.biShl1 .q7 .q3) ∧
      decode 0b00000000_0000_0000_0111_0001_00010010 = .ok (.biShr1 .q1 .q7) ∧
      decode 0b00000000_0000_0001_0110_0000_00010011 = .ok (.biCmp .q6 .q1) ∧
      decode 0b00000000_0101_0000_0010_0100_00010100 = .ok (.biFix .q4 .q2 .q5) ∧
      decode 0b00000000_0100_0011_0010_0001_00100000 = .ok (.mxMulmod .q1 .q2 .q3 .q4) ∧
      decode 0b00000000_0001_0111_0110_0101_00100001 = .ok (.mxModexp .q5 .q6 .q7 .q1) ∧
      decode 0b00000000_0000_0000_0101_0000_00110000 = .ok (.bcEnc .q5) ∧
      decode 0b00000000_0000_0000_0011_0000_00110001 = .ok (.bcDec .q3) ∧
      decode 0b00000000_0000_0000_0000_0000_01000000 = .ok .crcInit ∧
      decode 0b00000000_0000_0000_0000_0000_01000001 = .ok .crcUpd := by
  decide

/-- The table's numbering: 32 bits, and no command longer. -/
theorem test_table_word :
    decodeTableWord 32 0x00210320 = some (.mxMulmod .q3 .q0 .q1 .q2) ∧ decodeTableWord 32 0xFF = none ∧
      decodeTableWord 40 0x100000040 = none := by
  decide

/-! ## One step per command (values of section 3 of the vectors) -/

/-- section 3.1: carry through 15 bytes; overflow discarded -/
theorem test_add :
    (nextOf (exec (.biAdd .q3 .q0 .q1) (regs 0x00FFFFFFFFFFFFFFFFFFFFFFFFFFFFFF 1 0))).map (State.readQ · .q3) =
        some 0x01000000000000000000000000000000 ∧
      (nextOf (exec (.biAdd .q0 .q0 .q1) (regs 0xFFFFFFFFFFFFFFFFFFFFFFFFFFFFFFFF 1 0))).map (State.readQ · .q0) = some 0 := by
  decide

/-- section 3.1: the destination is also a source -/
theorem test_add_alias : (nextOf (exec (.biAdd .q0 .q0 .q0) (regs 5 0 0))).map (State.readQ · .q0) = some 0xA := by decide

/-- section 3.1: the top bit is lost -/
theorem test_shl1 :
    (nextOf (exec (.biShl1 .q0 .q0) (regs 0x80000000000000000000000000000001 0 0))).map (State.readQ · .q0) = some 2 := by
  decide

/-- R97, example: logical, bit 127 becomes 0 -/
theorem test_shr1 :
    (nextOf (exec (.biShr1 .q2 .q1) (regs 0 0x80000000000000000000000000000003 0))).map (State.readQ · .q2) =
      some 0x40000000000000000000000000000001 := by
  decide

/-- section 3.1: unsigned, and byte 0 decides -/
theorem test_cmp :
    (nextOf (exec (.biCmp .q0 .q1) (regs 0x80000000000000000000000000000000 0x7FFFFFFFFFFFFFFFFFFFFFFFFFFFFFFF 0))).map State.cmp =
        some 0b01 ∧
      (nextOf (exec (.biCmp .q1 .q0) (regs 0x10001 0x10000 0))).map State.cmp = some 0b10 := by
  decide

/-- section 3.1: the comparison is strict, and one subtraction only -/
theorem test_fix :
    (nextOf (exec (.biFix .q3 .q0 .q2) (regs 0x10001 0 0x10001))).map (State.readQ · .q3) = some 0x10001 ∧
      (nextOf (exec (.biFix .q3 .q0 .q2) (regs 0x20007 0 0x10001))).map (State.readQ · .q3) = some 0x10006 := by
  decide

/-- section 3.2, X19 and X20: the operands are not interchangeable -/
theorem test_mulmod :
    (nextOf (exec (.mxMulmod .q3 .q0 .q1 .q2) (regs 5 0x20005 0x10001))).map (State.readQ · .q3) = some 0x50014 ∧
      (nextOf (exec (.mxMulmod .q3 .q0 .q1 .q2) (regs 0x20005 5 0x10001))).map (State.readQ · .q3) = some 0xF := by
  decide +kernel

/-- section 3.2, X7: the non-canonical zero -/
theorem test_mulmod_zero :
    (nextOf (exec (.mxMulmod .q3 .q0 .q1 .q2) (regs 2 0x8000 0x10000))).map (State.readQ · .q3) = some 0x10000 := by
  decide +kernel

/-- section 3.2, X64 and X52 -/
theorem test_modexp :
    (nextOf (exec (.mxModexp .q3 .q0 .q1 .q2) (regs 3 5 0))).map (State.readQ · .q3) = some 0xF3 ∧
      (nextOf (exec (.mxModexp .q3 .q0 .q1 .q2) (regs 0 0 0x10001))).map (State.readQ · .q3) = some 1 := by
  decide +kernel

/-- section 3.2, X31: a base above the modulus -/
theorem test_modexp_above :
    (nextOf (exec (.mxModexp .q3 .q0 .q1 .q2) (regs 0x00112233445566778899AABBCCDDEEFF 2 0x10001))).map (State.readQ · .q3) =
      some 0x10DC84E7E3551B131B10D23D2F873301 := by
  decide +kernel

/-- section 3.3, B3: the overlapping tail -/
theorem test_enc :
    (nextOf (exec (.bcEnc .q4) (cipherState
        [0x00, 0x11, 0x22, 0x33, 0x44, 0x55, 0x66, 0x77, 0x88, 0x99, 0xAA, 0xBB, 0xCC]))).map (memBytes ·.buf 0 13) =
      some [0x6B, 0x36, 0x48, 0x79, 0xA4, 0x71, 0xD2, 0x68, 0xBB, 0x28, 0x4F, 0xB3, 0xC0] := by
  decide +kernel

/-- section 3.3, B12 -/
theorem test_dec :
    (nextOf (exec (.bcDec .q4) (cipherState
        [0x00, 0x11, 0x22, 0x33, 0x44, 0x55, 0x66, 0x77]))).map (memBytes ·.buf 0 8) =
      some [0x96, 0x8B, 0x9B, 0x14, 0x5F, 0xB4, 0xF5, 0xD9] := by
  decide +kernel

/-- R152, example -/
theorem test_crc_init : (nextOf (exec .crcInit { State.reset with crc := 0x12345678 })).map State.crc = some 0xFFFFFFFF := by
  decide

/-- section 3.4, K8: "abc" -/
theorem test_crc_upd :
    (nextOf (exec .crcUpd { State.reset with blen := 3, buf := bufOf [0x61, 0x62, 0x63] })).map State.crc = some 0xCADBBE3D := by
  decide +kernel

/-- section 3.6, W1: byte 0 of a register is the low byte of its word 0 -/
theorem test_q_word :
    (nextOf (step (idle [.write 0x0080 0x33221100]))).map (State.readQ · .q0) = some 0x00112233000000000000000000000000 := by
  decide

/-- section 3.5, L14: a rejection -/
theorem test_reject :
    (nextOf (step (idle [.write 0x0008 0x000000FF]))).map (fun t => (statusWord t, t.errCmd)) = some (0x00000106, 0xFF) := by
  decide

/-! ## Witnesses: encoding -/

theorem witness_OnlyItsEncodingDecodesToACommand : decode 0x00777721 = .ok (.mxModexp .q7 .q7 .q7 .q7) := by decide

theorem witness_DecoderAgreesWithTheMaskTable : (⟨"BC_DEC", 0xFFFF8FFF, 0x00000031⟩ : OpRow) ∈ opRows := by decide

theorem witness_IssueTestsStopAtTheFirstFailure :
    fieldOp 0x00000000 ∉ definedOpcodes ∧ fieldOp 0xFF0000EE ∉ definedOpcodes ∧
      (fieldOp 0x01000010 ∈ definedOpcodes ∧ wellFormedWord 0x01000010 = false) ∧
      (decode 0x00004030 = .ok (.bcEnc .q4) ∧ acceptable (.bcEnc .q4) 1 = false ∧ acceptable (.bcEnc .q4) 7 = false ∧
        acceptable (.bcEnc .q4) 4097 = false) ∧
      (acceptable (.bcEnc .q4) 0 = true ∧ acceptable (.bcEnc .q4) 8 = true ∧ acceptable (.bcEnc .q4) 4096 = true) := by
  decide

theorem witness_LengthCheckOfAWellFormedCommand :
    checkIssue 0x00004030 0 = .ok (.bcEnc .q4) ∧ checkIssue 0x00004031 8 = .ok (.bcDec .q4) ∧
      checkIssue 0x00004031 4096 = .ok (.bcDec .q4) ∧ checkIssue 0x00000041 4096 = .ok .crcUpd ∧
      checkIssue 0x00004030 7 = .error .badLength ∧ checkIssue 0x00004031 4097 = .error .badLength ∧
      checkIssue 0x00000041 4097 = .error .badLength ∧ checkIssue 0x00000040 4097 = .ok .crcInit := by
  decide

/-! ## Witnesses: the life of a command -/

theorem witness_StepRunsTheHeldCommand :
    ((held .crcInit 0 []).busy = true ∧ decode (held .crcInit 0 []).cmdr = .ok .crcInit ∧ (held .crcInit 0 []).schedule = []) ∧
      (held .crcInit 0 [.engine, .reset]).schedule = .engine :: [.reset] ∧
      exec .crcInit (held .crcInit 0 []) = .next (held .crcInit 0 []) ∧
      decode (encode (.biAdd .q2 .q0 .q1)) = .ok (.biAdd .q2 .q0 .q1) := by
  refine ⟨by decide, rfl, rfl, by decide⟩

theorem witness_WriteToCmdHasThreeOutcomes :
    ((held .crcInit 0 [.write 0x0008 0x41]).schedule = .write 0x0008 0x41 :: [] ∧ (held .crcInit 0 [.write 0x0008 0x41]).busy = true) ∧
      ((idle [.write 0x0008 0xFF]).schedule = .write 0x0008 0xFF :: [] ∧ (idle []).busy = false ∧
        checkIssue 0xFF (idle []).blen = .error .illegalOpcode) ∧
      checkIssue 0x40 (idle []).blen = .ok .crcInit := by
  decide

theorem witness_CompletionOfAnAcceptedCommand :
    ((idle []).busy = false ∧ (idle []).schedule = []) ∧
      (held (.bcEnc .q4) 4096 []).busy = true ∧ decode (held (.bcEnc .q4) 4096 []).cmdr = .ok (.bcEnc .q4) ∧
      acceptable (.bcEnc .q4) (held (.bcEnc .q4) 4096 []).blen = true := by
  decide

theorem witness_StatusWriteClearsByOnes : (idle [.write 0x0004 0xE]).schedule = .write 0x0004 0xE :: [] := rfl

theorem witness_StatusReadShowsItsFields : (idle [.read 0x0004]).schedule = .read 0x0004 :: [] := rfl

theorem witness_ControlReadsAreExact :
    (idle [.read 0x0000]).schedule = .read 0x0000 :: [] ∧ (idle [.read 0x0008]).schedule = .read 0x0008 :: [] ∧
      (idle [.read 0x000C]).schedule = .read 0x000C :: [] ∧ (idle [.read 0x0014]).schedule = .read 0x0014 :: [] :=
  ⟨rfl, rfl, rfl, rfl⟩

theorem witness_PlainControlWrites :
    (idle [.write 0x0000 1]).schedule = .write 0x0000 1 :: [] ∧ (idle [.write 0x0014 1]).schedule = .write 0x0014 1 :: [] ∧
      ((idle [.write 0x000C 9]).busy = false ∧ (idle [.write 0x000C 9]).schedule = .write 0x000C 9 :: []) ∧
      (idle [.write 0x0010 9]).schedule = .write 0x0010 9 :: [] :=
  ⟨rfl, rfl, ⟨rfl, rfl⟩, rfl⟩

/-- The line rises at a completion, at a rejection, at an enable. -/
theorem witness_WhatMovesTheInterruptLine_rise :
    ((State.irq { held .crcInit 0 [] with ie := true }) = false ∧
        (nextOf (step { held .crcInit 0 [] with ie := true })).map State.irq = some true) ∧
      (State.irq { idle [.write 0x0008 0xFF] with ie := true } = false ∧
        (nextOf (step { idle [.write 0x0008 0xFF] with ie := true })).map State.irq = some true) ∧
      (State.irq { idle [.write 0x0000 1] with done := true } = false ∧
        (nextOf (step { idle [.write 0x0000 1] with done := true })).map State.irq = some true) := by
  decide

/-- The line falls at a clear of `DONE`, at a disable, at an accepted issue, at a reset. -/
theorem witness_WhatMovesTheInterruptLine_fall :
    [Event.write 0x0004 2, .write 0x0000 0, .write 0x0008 0x40, .reset].all fun e =>
      State.irq { idle [e] with ie := true, done := true } &&
        ((nextOf (step { idle [e] with ie := true, done := true })).map State.irq == some false) := by
  decide

/-- A busy state that meets the invariant, at the largest length. -/
theorem held_inv (es : List Event) : Inv (held (.bcEnc .q4) 4096 es) :=
  ⟨(by decide : Memory.wf [] = true), (by decide : false = false ↔ (0 : BitVec 4) = 0), fun _ => rfl,
    (by decide : (0 : BitVec 4).toNat ≤ 3), (by decide : (0 : BitVec 2) ≠ 0b11),
    fun _ => ⟨.bcEnc .q4, (by decide : decode (encode (.bcEnc .q4)) = .ok (.bcEnc .q4)),
      (by decide : acceptable (.bcEnc .q4) 4096 = true)⟩, fun _ => rfl⟩

/-- A held command, with host transactions scheduled, alone and before the engine's turn and a reset. -/
theorem witness_HeldCommandCompletesUnlessAResetComesFirst :
    Inv (held (.bcEnc .q4) 4096 [.read 0x0004, .write 0x0008 0x40]) ∧
      Inv (held (.bcEnc .q4) 4096 ([.read 0x0004, .write 0x0008 0x40] ++ .engine :: [.reset])) ∧
      (held (.bcEnc .q4) 4096 [.read 0x0004, .write 0x0008 0x40]).busy = true ∧
      decode (held (.bcEnc .q4) 4096 [.read 0x0004, .write 0x0008 0x40]).cmdr = .ok (.bcEnc .q4) ∧
      ∀ e ∈ [Event.read 0x0004, .write 0x0008 0x40], isHostEvent e = true :=
  ⟨held_inv _, held_inv _, rfl, by decide, by decide⟩

theorem witness_HostCannotChangeHeldOperands :
    (held .crcInit 0 ([.write 0x0080 7, .read 0x0080] ++ [.engine])).busy = true ∧
      (held .crcInit 0 ([.write 0x0080 7, .read 0x0080] ++ [.engine])).schedule =
        [.write 0x0080 7, .read 0x0080] ++ [.engine] ∧
      (∀ e ∈ [Event.write 0x0080 7, .read 0x0080], isHostEvent e = true) := by
  decide

theorem witness_IssueThenCompletionIsOneFunctionCall :
    (idle (.write 0x0008 (encode (.bcDec .q4)) :: ([.read 0x0004] ++ .engine :: []))).busy = false ∧
      (idle (.write 0x0008 (encode (.bcDec .q4)) :: ([.read 0x0004] ++ .engine :: []))).schedule =
        .write 0x0008 (encode (.bcDec .q4)) :: ([.read 0x0004] ++ .engine :: []) ∧
      acceptable (.bcDec .q4) (idle []).blen = true ∧ (∀ e ∈ [Event.read 0x0004], isHostEvent e = true) := by
  decide

/-! ## Witnesses: the window, at the ends of its ranges -/

/-- The ends of every range of R44. -/
theorem test_window_ends :
    [0x0018, 0x007C, 0x0100, 0x0FFC, 0x0001, 0x0016, 0x1FFE, 0x1FFF].all (fun off => windowTarget off == none) ∧
      windowTarget 0x0080 = some (.qWord .q0 0) ∧ windowTarget 0x00FC = some (.qWord .q7 3) ∧
      windowTarget 0x1000 = some (.bufWord 0) ∧ windowTarget 0x1FFC = some (.bufWord 1023) := by
  decide

theorem witness_BusErrorExactlyAtBadOffsets :
    ((idle [.read 0x0FFC]).schedule = .read 0x0FFC :: [] ∧
        (nextOf (step (idle [.read 0x0FFC]))).map State.answer = some (some .busError)) ∧
      ((idle [.write 0x0018 1]).schedule = .write 0x0018 1 :: [] ∧
        (nextOf (step (idle [.write 0x0018 1]))).map State.answer = some (some .busError)) ∧
      (nextOf (step (idle [.write 0x0014 1]))).map State.answer = some (some .ok) := by
  decide

/-- The two kinds of data offset at the ends of their ranges. -/
theorem witness_dataOffset : dataOffset 0x0080 ∧ dataOffset 0x00FC ∧ dataOffset 0x1000 ∧ dataOffset 0x1FFC := by
  simp [dataOffset]

/-- The bad offsets at the ends of their ranges. -/
theorem witness_badOffset :
    badOffset 0x0018 ∧ badOffset 0x007C ∧ badOffset 0x0100 ∧ badOffset 0x0FFC ∧ badOffset 0x0002 ∧ badOffset 0x1FFF := by
  simp [badOffset]

theorem witness_WriteLockWhileBusy :
    (held .crcInit 0 [.write 0x1FFC 7]).busy = true ∧ (held .crcInit 0 [.write 0x1FFC 7]).schedule = .write 0x1FFC 7 :: [] ∧
      dataOffset 0x1FFC ∧ badOffset 0x0018 :=
  ⟨rfl, rfl, witness_dataOffset.2.2.2, witness_badOffset.1⟩

theorem witness_BusyReadsAnswerAnyValue :
    (held .crcInit 0 [.read 0x00FC]).busy = true ∧ (held .crcInit 0 [.read 0x00FC]).schedule = .read 0x00FC :: [] ∧
      dataOffset 0x00FC :=
  ⟨rfl, rfl, witness_dataOffset.2.1⟩

theorem witness_HostWriteOfAQWord :
    (3 < 4 ∧ (idle [.write (qOffset .q7 3) 1]).busy = false ∧
        (idle [.write (qOffset .q7 3) 1]).schedule = .write (qOffset .q7 3) 1 :: []) ∧
      qOffset .q7 3 = 0x00FC ∧ qOffset .q0 0 = 0x0080 := by
  decide

theorem witness_IdleDataReadsAreExact :
    ((idle [.read 0x0010]).busy = false ∧ (idle [.read 0x0010]).schedule = .read 0x0010 :: []) ∧
      (idle [.read (qOffset .q7 3)]).schedule = .read (qOffset .q7 3) :: [] ∧
      (1023 < 1024 ∧ (idle [.read (bufOffset 1023)]).schedule = .read (bufOffset 1023) :: []) := by
  decide

theorem witness_HostWriteOfABufWord :
    (1023 < 1024 ∧ (idle [.write (bufOffset 1023) 1]).busy = false ∧ (idle [.write (bufOffset 1023) 1]).buf.wf = true ∧
        (idle [.write (bufOffset 1023) 1]).schedule = .write (bufOffset 1023) 1 :: []) ∧
      bufOffset 1023 = 0x1FFC ∧ bufOffset 0 = 0x1000 := by
  decide

/-! ## Witnesses: invariants and whole-machine rules -/

theorem witness_EveryStepKeepsTheInvariant :
    Inv (held (.bcEnc .q4) 4096 [.write 0x0000 1]) ∧
      step (held (.bcEnc .q4) 4096 [.write 0x0000 1]) =
        .next { held (.bcEnc .q4) 4096 [] with ie := true, answer := some .ok } :=
  ⟨held_inv _, by rw [step_of_write rfl windowTarget_ctrl]; rfl⟩

theorem witness_NoStepStopsUnderTheInvariant : Inv (held (.bcEnc .q4) 4096 []) := held_inv _

theorem witness_OnlyBiCmpChangesCmp :
    ((nextOf (step { held (.biCmp .q0 .q1) 0 [] with q := ⟨5, 6, 0, 0, 0, 0, 0, 0⟩ })).map State.cmp = some 0b10) ∧
      (nextOf (step { idle [.reset] with cmp := 0b01 })).map State.cmp = some 0b00 := by
  decide

theorem witness_WhatCanChangeAQRegister :
    ((nextOf (step (held (.mxModexp .q3 .q0 .q1 .q2) 0 []))).map (State.readQ · .q3) = some 1) ∧
      (nextOf (step (idle [.write (qOffset .q7 3) 0x01000000]))).map (State.readQ · .q7) = some 1 := by
  decide +kernel

theorem witness_WhatCanChangeABufByte :
    ((nextOf (step (held (.bcEnc .q4) 8 []))).map (memRead ·.buf 7) = some 0x94) ∧
      (nextOf (step (idle [.write (bufOffset 1023) 0x80000000]))).map (memRead ·.buf 4095) = some 0x80 := by
  decide +kernel

theorem witness_WhatCanChangeBlenAndCrc :
    ((nextOf (step (idle [.write 0x000C 5]))).map State.blen = some 5) ∧
      ((nextOf (step (idle [.write 0x0010 5]))).map State.crc = some 5) ∧
      (nextOf (step { held .crcInit 0 [] with crc := 5 })).map State.crc = some 0xFFFFFFFF ∧
      (nextOf (step { idle [.reset] with blen := 5, crc := 5 })).map (fun t => (t.blen, t.crc)) = some (0, 0xFFFFFFFF) := by
  decide

/-- A second rejection, a clear, a first rejection. -/
theorem witness_FirstErrorWins :
    ((nextOf (step { idle [.write 0x0008 0x01000010] with err := true, errCode := 1, errCmd := 0xFF })).map
        (fun t => (t.err, t.errCode, t.errCmd)) = some (true, 1, 0xFF)) ∧
      ((nextOf (step { idle [.write 0x0004 4] with err := true, errCode := 1, errCmd := 0xFF })).map
        (fun t => (t.err, t.errCode, t.errCmd)) = some (false, 0, 0)) ∧
      ((nextOf (step (idle [.write 0x0008 0x01000010]))).map (fun t => (t.err, t.errCode, t.errCmd)) =
        some (true, 2, 0x01000010)) := by
  decide

/-! ## Witnesses: the units -/

/-- The clauses of BI_CMP. -/
theorem witness_BiCmpWritesTheUnsignedOrder :
    ((regs 5 5 0).readQ .q0).toNat = ((regs 5 5 0).readQ .q1).toNat ∧
      ((regs 6 5 0).readQ .q0).toNat > ((regs 6 5 0).readQ .q1).toNat ∧
      ((regs 5 6 0).readQ .q0).toNat < ((regs 5 6 0).readQ .q1).toNat := by
  decide

/-- The clauses of BI_FIX, where they meet: `a = m`, `a = m + 1`, `m = 0`, `a = 2m + 1`. -/
theorem witness_BiFixSubtractsOnceIfStrictlyAbove :
    ((regs 6 5 0).readQ .q0).toNat > ((regs 6 5 0).readQ .q1).toNat ∧
      ((regs 5 5 0).readQ .q0).toNat ≤ ((regs 5 5 0).readQ .q1).toNat ∧
      ((regs 5 0 0).readQ .q1).toNat = 0 ∧
      ((regs 11 5 0).readQ .q0).toNat > 2 * ((regs 11 5 0).readQ .q1).toNat := by
  decide

/-- The smallest and the largest modulus, with `b = m`, and both clauses on the residue. -/
theorem witness_MulModIsTheProductWithinBounds :
    (1 ≤ (1 : Big).toNat ∧ (1 : Big).toNat < 2 ^ 127 ∧ (1 : Big).toNat ≤ (1 : Big).toNat) ∧
      (1 ≤ (0x7FFFFFFFFFFFFFFFFFFFFFFFFFFFFFFF : Big).toNat ∧ (0x7FFFFFFFFFFFFFFFFFFFFFFFFFFFFFFF : Big).toNat < 2 ^ 127) ∧
      ((3 : Big).toNat * (5 : Big).toNat % (0x10001 : Big).toNat ≠ 0) ∧
      ((2 : Big).toNat * (0x8000 : Big).toNat % (0x10000 : Big).toNat = 0) := by
  decide

/-- Sequences that go on as the step lists say. -/
theorem witness_StepListsOfTheModularFunctions :
    (∃ acc t2 : Nat → Nat, acc 0 = 0 ∧ t2 0 = (0 : Big).toNat ∧
      (∀ k, acc (k + 1) = if (5 : Big).getLsbD k then fixNat ((acc k + t2 k) % 2 ^ 128) (3 : Big).toNat else acc k) ∧
      ∀ k, t2 (k + 1) = fixNat (2 * t2 k % 2 ^ 128) (3 : Big).toNat) ∧
    ∃ out base : Nat → Big, out 0 = 1 ∧ base 0 = 0 ∧
      (∀ k, out (k + 1) = if (0 : Big).getLsbD k then mulMod (out k) (base k) 3 else out k) ∧
      ∀ k, base (k + 1) = mulMod (base k) (base k) 3 :=
  ⟨⟨fun _ => 0, fun _ => 0, rfl, rfl, fun k => by cases (5 : Big).getLsbD k <;> rfl, fun _ => rfl⟩,
    fun _ => 1, fun _ => 0, rfl, rfl, fun k => by simp, fun _ => (by decide +kernel : (0 : Big) = mulMod 0 0 3)⟩

/-- The modulus 1, and the prime modulus `0x10001` with the least and the greatest base. -/
theorem witness_ModExpIsThePowerWithinBounds :
    (1 ≤ (1 : Big).toNat ∧ (1 : Big).toNat < 2 ^ 127 ∧ (1 : Big).toNat ≤ (1 : Big).toNat) ∧
      ((0x10001 : Big).toNat.Prime ∧ (0x10001 : Big).toNat < 2 ^ 127 ∧ 1 ≤ (1 : Big).toNat ∧
        (0x10000 : Big).toNat ≤ (0x10001 : Big).toNat - 1) :=
  ⟨by decide, by rw [show (0x10001 : Big).toNat = 65537 from rfl]; norm_num, by decide, by decide, by decide⟩

theorem witness_ZeroModulusIsPlainArithmetic : (regs 7 9 0).readQ .q2 = 0 := by decide

theorem witness_ModExpCornerCases :
    (1 : Big) ≠ 0 ∧ (1 ≤ (1 : Big).toNat ∧ (1 : Big).toNat < 2 ^ 127) ∧
      (0x7FFFFFFFFFFFFFFFFFFFFFFFFFFFFFFF : Big).toNat < 2 ^ 127 := by
  decide

/-- A key. -/
def testKey : Key := ⟨1, 2, 3, 4⟩

/-- Sequences that go on as the round lists say: the model's own rounds. -/
theorem witness_BlockFunctionsFollowTheRoundLists :
    (∃ sum y z : Nat → Word, sum 0 = 0 ∧ (∀ i, sum (i + 1) = sum i + 0x9E3779B9) ∧
      (∀ i, y (i + 1) = y i + (((z i <<< 4) + testKey.a) ^^^ (z i + sum (i + 1)) ^^^ ((z i >>> 5) + testKey.b))) ∧
      ∀ i, z (i + 1) = z i + (((y (i + 1) <<< 4) + testKey.c) ^^^ (y (i + 1) + sum (i + 1)) ^^^ ((y (i + 1) >>> 5) + testKey.d))) ∧
    ∃ sum y z : Nat → Word, sum 0 = 0xC6EF3720 ∧ (∀ i, sum (i + 1) = sum i - 0x9E3779B9) ∧
      (∀ i, z (i + 1) = z i - (((y i <<< 4) + testKey.c) ^^^ (y i + sum i) ^^^ ((y i >>> 5) + testKey.d))) ∧
      ∀ i, y (i + 1) = y i - (((z (i + 1) <<< 4) + testKey.a) ^^^ (z (i + 1) + sum i) ^^^ ((z (i + 1) >>> 5) + testKey.b)) :=
  ⟨⟨fun i => (cipherLoop (encRound testKey) i ⟨7, 9, 0⟩).sum, fun i => (cipherLoop (encRound testKey) i ⟨7, 9, 0⟩).y,
      fun i => (cipherLoop (encRound testKey) i ⟨7, 9, 0⟩).z, rfl,
      fun i => by simp only [cipherLoop_succ, encRound, delta], fun i => by simp only [cipherLoop_succ, encRound, mix],
      fun i => by simp only [cipherLoop_succ, encRound, mix]⟩,
    fun i => (cipherLoop (decRound testKey) i ⟨7, 9, dsum0⟩).sum,
      fun i => (cipherLoop (decRound testKey) i ⟨7, 9, dsum0⟩).y,
      fun i => (cipherLoop (decRound testKey) i ⟨7, 9, dsum0⟩).z, rfl,
      fun i => by simp only [cipherLoop_succ, decRound, delta], fun i => by simp only [cipherLoop_succ, decRound, mix],
      fun i => by simp only [cipherLoop_succ, decRound, mix]⟩

/-- A sequence that goes on as the bit steps say. -/
theorem witness_CrcByteIsEightBitStepsAndTableDriven :
    ∃ v : Nat → Word, v 0 = (0 : Word) ^^^ (0 : Byte).setWidth 32 ∧
      ∀ i, v (i + 1) = if (v i).getLsbD 0 then (v i >>> 1) ^^^ 0xEDB88320 else v i >>> 1 :=
  ⟨fun _ => 0, by decide, fun _ =>
    (by decide : (0 : Word) = if (0 : Word).getLsbD 0 then ((0 : Word) >>> 1) ^^^ 0xEDB88320 else (0 : Word) >>> 1)⟩

theorem witness_KeyWordsOfARegister : 0 < 4 ∧ 3 < 4 := by decide

/-- Lengths 0, 8, 9, 4095 and 4096, with and without a tail. -/
theorem witness_BcEncEncryptsBlocksThenTail :
    (held (.bcEnc .q4) 4096 []).buf.wf = true ∧ (8 ≤ (4096 : Word).toNat ∧ (4096 : Word).toNat ≤ 4096) ∧ (0 : Word).toNat = 0 ∧
      (8 ≤ (8 : Word).toNat ∧ (8 : Word).toNat % 8 = 0) ∧ (9 : Word).toNat % 8 ≠ 0 ∧ (4095 : Word).toNat % 8 ≠ 0 := by
  decide

theorem witness_BcDecDecryptsTailThenBlocks :
    (held (.bcDec .q4) 4095 []).buf.wf = true ∧ (8 ≤ (4095 : Word).toNat ∧ (4095 : Word).toNat ≤ 4096) ∧
      (4095 : Word).toNat % 8 ≠ 0 ∧ (4096 : Word).toNat % 8 = 0 := by
  decide

theorem witness_CipherRoundTrip :
    (cipherState [1, 2, 3, 4, 5, 6, 7, 8, 9]).buf.wf = true ∧ 8 ≤ (cipherState [1, 2, 3, 4, 5, 6, 7, 8, 9]).blen.toNat ∧
      (cipherState [1, 2, 3, 4, 5, 6, 7, 8, 9]).blen.toNat ≤ 4096 := by
  decide

/-- The stops: the lengths 1, 7 and 4097, and a held word that is no command. -/
theorem witness_TheModelsTwoStopsLieOutsideTheInvariant :
    (¬ ((1 : Word).toNat = 0 ∨ (8 ≤ (1 : Word).toNat ∧ (1 : Word).toNat ≤ 4096))) ∧
      (¬ ((7 : Word).toNat = 0 ∨ (8 ≤ (7 : Word).toNat ∧ (7 : Word).toNat ≤ 4096))) ∧
      (¬ ((4097 : Word).toNat = 0 ∨ (8 ≤ (4097 : Word).toNat ∧ (4097 : Word).toNat ≤ 4096))) ∧
      4096 < (4097 : Word).toNat ∧
      ({ State.reset with busy := true } : State).busy = true ∧
        decode ({ State.reset with busy := true } : State).cmdr = .error .illegalOpcode := by
  decide

/-- The engine's turn does fault, in a state that does not meet the invariant. -/
theorem witness_TheModelsTwoStopsLieOutsideTheInvariant_fault :
    engineTurn { State.reset with busy := true } = .fault .heldWordNotACommand :=
  rfl

/-- A second memory that differs from the first at BLEN. -/
theorem witness_BytesFromBlenOnMatterToNoCommand :
    (held .crcUpd 1 []).buf.wf = true ∧ Memory.wf [(1, 0x5A)] = true ∧
      (∀ a, a < (held .crcUpd 1 []).blen.toNat → memRead [(1, 0x5A)] a = memRead (held .crcUpd 1 []).buf a) ∧
      (nextOf (exec .crcUpd (held .crcUpd 1 []))).isSome = true := by
  decide +kernel

theorem witness_CrcUpdFoldsTheBuffer : (0 : Word).toNat ≤ 4096 ∧ (4096 : Word).toNat ≤ 4096 := by decide

theorem witness_ResetPutsControlAtResetValues :
    (isResetEvent .reset = true ∧ (held .crcInit 0 [.reset]).schedule = .reset :: []) ∧
      (isResetEvent .powerOn = true ∧ (idle [.powerOn]).schedule = .powerOn :: []) := by
  decide

theorem witness_ResetKeepsAllButTheAbandonedDestination :
    ((idle [.reset]).schedule = .reset :: [] ∧ (idle [.reset]).busy = false) ∧
      (held (.bcDec .q4) 8 [.reset]).busy = true ∧ decode (held (.bcDec .q4) 8 [.reset]).cmdr = .ok (.bcDec .q4) ∧
      destQ (.bcDec .q4) ≠ some .q4 ∧ writesBuf .crcUpd = false := by
  decide

end Sys2Proof.Tests
end

section
/-! PROOFS. What a step can change, field by field, and the invariant that every step keeps (`10_state.md`: R12, R14 to
R16, R21, R23, R27). The first part says, for each operation a step is made of, which operation changes a given field;
`StepEffect` names the six effects a step can have; each obligation then goes through these effects. -/

namespace Sys2Proof.Machine

open Sys2Proof.Safety

/-! ## What one operation changes -/

/-! A host write (R42). -/

/-- An issue attempt writes no operand of a command and no condition code (R166, R167). -/
theorem State.issue_keeps (w : Word) (s : State) :
    (s.issue w).q = s.q ∧ (s.issue w).buf = s.buf ∧ (s.issue w).blen = s.blen ∧ (s.issue w).crc = s.crc ∧
      (s.issue w).cmp = s.cmp := by
  rcases State.issue_cases w s with ⟨-, h⟩ | ⟨-, e, -, h⟩ | ⟨-, i, -, h⟩ <;> simp [h]

@[simp] theorem State.writeTarget_cmp (t : Target) (d : Word) (s : State) : (s.writeTarget t d).cmp = s.cmp := by
  cases t with
  | cmd => simp [State.writeTarget, State.issue_keeps]
  | status => simp [State.writeTarget, State.writeStatus_eq]
  | _ => rfl

theorem State.writeTarget_blen (t : Target) (d : Word) (s : State) :
    (s.writeTarget t d).blen = if t = .blen then d else s.blen := by
  cases t with
  | cmd => simp [State.writeTarget, State.issue_keeps]
  | status => simp [State.writeTarget, State.writeStatus_eq]
  | _ => rfl

theorem State.writeTarget_crc (t : Target) (d : Word) (s : State) :
    (s.writeTarget t d).crc = if t = .crc then d else s.crc := by
  cases t with
  | cmd => simp [State.writeTarget, State.issue_keeps]
  | status => simp [State.writeTarget, State.writeStatus_eq]
  | _ => rfl

/-- Only a write of one of its words changes a register (R12, R45). -/
theorem State.target_of_writeTarget_readQ_ne {t : Target} {d : Word} {s : State} {r : QReg}
    (changed : (s.writeTarget t d).readQ r ≠ s.readQ r) : ∃ j, t = .qWord r j := by
  cases t with
  | cmd => simp [State.writeTarget, State.readQ, State.issue_keeps] at changed
  | status => simp [State.writeTarget, State.readQ, State.writeStatus_eq] at changed
  | qWord r' j =>
    by_cases same : r = r'
    · exact ⟨j, same ▸ rfl⟩
    · exact absurd (State.readQ_writeQ_ne s _ same) changed
  | _ => exact absurd rfl changed

/-- Only a write of its word changes a byte of BUF (R14, R46). -/
theorem State.target_of_writeTarget_memRead_ne {t : Target} {d : Word} {s : State} {a : Nat}
    (changed : memRead (s.writeTarget t d).buf a ≠ memRead s.buf a) : ∃ w, t = .bufWord w ∧ a / 4 = w.val := by
  cases t with
  | cmd => simp [State.writeTarget, State.issue_keeps] at changed
  | status => simp [State.writeTarget, State.writeStatus_eq] at changed
  | bufWord w =>
    by_cases inside : a / 4 = w.val
    · exact ⟨w, rfl, inside⟩
    · exact absurd (memRead_memWrite32_ne s.buf d (by omega)) changed
  | _ => exact absurd rfl changed

/-! The performing of a command (R170). -/

/-- Only the destination register of a command changes (R12). -/
theorem exec_destQ_of_readQ_ne {i : Instr} {s u : State} (performed : exec i s = .next u) {r : QReg}
    (changed : u.readQ r ≠ s.readQ r) : destQ i = some r := by
  rcases exec_cases performed with ⟨d, v, dest, -, rfl⟩ | ⟨a, b, -, rfl⟩ | ⟨k, -, -, rfl⟩ |
    ⟨k, -, -, rfl⟩ | ⟨-, rfl⟩ | ⟨-, -, rfl⟩
  · by_cases same : r = d
    · rw [dest, same]
    · exact absurd (State.readQ_writeQ_ne s v same) changed
  all_goals exact absurd rfl changed

/-- Only a cipher command changes a byte of BUF, and only below BLEN (R14, R136). -/
theorem exec_writesBuf_of_memRead_ne {i : Instr} {s u : State} (performed : exec i s = .next u) {a : Nat}
    (changed : memRead u.buf a ≠ memRead s.buf a) : writesBuf i = true ∧ a < s.blen.toNat := by
  rcases exec_cases performed with ⟨d, v, -, -, rfl⟩ | ⟨_, _, -, rfl⟩ | ⟨k, rfl, len, rfl⟩ |
    ⟨k, rfl, len, rfl⟩ | ⟨-, rfl⟩ | ⟨-, -, rfl⟩
  case inr.inr.inl =>
    exact ⟨rfl, Nat.lt_of_not_le fun above => changed (memRead_encBuffer_ge _ len _ above)⟩
  case inr.inr.inr.inl =>
    exact ⟨rfl, Nat.lt_of_not_le fun above => changed (memRead_decBuffer_ge _ len _ above)⟩
  all_goals exact absurd rfl changed

/-- Only CRC_INIT and CRC_UPD change CRC (R16). -/
theorem exec_crc_command_of_crc_ne {i : Instr} {s u : State} (performed : exec i s = .next u)
    (changed : u.crc ≠ s.crc) : i = .crcInit ∨ i = .crcUpd := by
  rcases exec_cases performed with ⟨d, v, -, -, rfl⟩ | ⟨_, _, -, rfl⟩ | ⟨k, -, -, rfl⟩ |
    ⟨k, -, -, rfl⟩ | ⟨init, -⟩ | ⟨upd, -, -⟩
  case inr.inr.inr.inr.inl => exact .inl init
  case inr.inr.inr.inr.inr => exact .inr upd
  all_goals exact absurd rfl changed

/-- Only BI_CMP changes `CMP`, and it writes the order of its operands (R23, R98). -/
theorem exec_biCmp_of_cmp_ne {i : Instr} {s u : State} (performed : exec i s = .next u) (changed : u.cmp ≠ s.cmp) :
    ∃ a b, i = .biCmp a b ∧ u.cmp = cmpCode (s.readQ a) (s.readQ b) := by
  rcases exec_cases performed with ⟨d, v, -, -, rfl⟩ | ⟨a, b, rfl, rfl⟩ | ⟨k, -, -, rfl⟩ |
    ⟨k, -, -, rfl⟩ | ⟨-, rfl⟩ | ⟨-, -, rfl⟩
  case inr.inl => exact ⟨a, b, rfl, rfl⟩
  all_goals exact absurd rfl changed

/-! A reset (R210 to R212). -/

/-- Only the destination register of the abandoned command changes at a reset (R212). -/
theorem State.abandoned_of_applyReset_readQ_ne {s : State} {r : QReg} (changed : s.applyReset.readQ r ≠ s.readQ r) :
    s.busy = true ∧ ∃ i, decode s.cmdr = .ok i ∧ destQ i = some r := by
  rcases State.applyReset_cases s with ⟨-, h⟩ | ⟨held, i, isCmd, h⟩ | ⟨-, e, -, h⟩
  · exact absurd (h ▸ rfl) changed
  · refine ⟨held, i, isCmd, ?_⟩
    rw [h] at changed
    rcases State.abandon_cases i s with ⟨d, dest, -, h'⟩ | ⟨-, -, h'⟩ | ⟨-, -, h'⟩ <;> rw [h'] at changed
    · by_cases same : r = d
      · rw [dest, same]
      · exact absurd (State.readQ_writeQ_ne s _ same) changed
    all_goals exact absurd rfl changed
  · exact absurd (h ▸ rfl) changed

/-- Only the bytes of BUF below BLEN change at a reset, and only if it abandons a cipher command (R212). -/
theorem State.abandoned_of_applyReset_memRead_ne {s : State} {a : Nat}
    (changed : memRead s.applyReset.buf a ≠ memRead s.buf a) :
    s.busy = true ∧ a < s.blen.toNat ∧ ∃ i, decode s.cmdr = .ok i ∧ writesBuf i = true := by
  rcases State.applyReset_cases s with ⟨-, h⟩ | ⟨held, i, isCmd, h⟩ | ⟨-, e, -, h⟩
  · exact absurd (h ▸ rfl) changed
  · rw [h] at changed
    rcases State.abandon_cases i s with ⟨d, -, -, h'⟩ | ⟨-, cipher, h'⟩ | ⟨-, -, h'⟩ <;> rw [h'] at changed
    case inr.inl =>
      refine ⟨held, Nat.lt_of_not_le fun above => changed ?_, i, isCmd, cipher⟩
      exact memRead_memFill_ge _ _ (Nat.le_trans (Nat.min_le_left _ _) above)
    all_goals exact absurd rfl changed
  · exact absurd (h ▸ rfl) changed

/-- Whatever a reset abandons, BUF is as before or filled as for a cipher command, and the control state is reset (R211,
R212). -/
theorem State.applyReset_eq_resetControl (s : State) :
    ∃ u : State, (u.buf = s.buf ∨ u.buf = s.abandonBuf.buf) ∧ s.applyReset = u.resetControl := by
  rcases State.applyReset_cases s with ⟨-, h⟩ | ⟨-, i, -, h⟩ | ⟨-, e, -, h⟩
  · exact ⟨s, .inl rfl, h⟩
  · refine ⟨_, ?_, h⟩
    rcases State.abandon_cases i s with ⟨d, -, -, h'⟩ | ⟨-, -, h'⟩ | ⟨-, -, h'⟩ <;> rw [h']
    · exact .inl rfl
    · exact .inr rfl
    · exact .inl rfl
  · exact ⟨s, .inl rfl, h⟩

/-! ## What one step can be -/

/-- The six effects of a step on the block, with the event that has it. -/
inductive StepEffect (s : State) : State → Prop
  /-- The block is as before, the model's own fields apart: a host read, a bus error, an idle engine. -/
  | bookkeeping (es : List Event) (a : Option Answer) (n : Nat) :
      StepEffect s { s with schedule := es, answer := a, draws := n }
  /-- The held command completes (R168). -/
  | completion (es : List Event) (i : Instr) (u : State) (turn : s.schedule = [] ∨ s.schedule = .engine :: es)
      (held : s.busy = true) (isCmd : decode s.cmdr = .ok i) (performed : exec i (s.setSchedule es) = .next u) :
      StepEffect s u.finish
  /-- A write to locked state is dropped (R50). -/
  | dropped (off : Offset) (d : Word) (es : List Event) (t : Target) (event : s.schedule = .write off d :: es)
      (named : windowTarget off = some t) (held : s.busy = true) (locked : t.writeLocked = true) :
      StepEffect s ((s.setSchedule es).dropWrite.respond .ok)
  /-- The host writes a target that is not locked (R42). -/
  | written (off : Offset) (d : Word) (es : List Event) (t : Target) (event : s.schedule = .write off d :: es)
      (named : windowTarget off = some t) (unlocked : s.busy = false ∨ t.writeLocked = false) :
      StepEffect s (((s.setSchedule es).writeTarget t d).respond .ok)
  /-- A reset (R210). -/
  | reset (es : List Event) (event : s.schedule = .reset :: es) : StepEffect s (s.setSchedule es).applyReset
  /-- Power-on (R213). -/
  | powerOn (es : List Event) (event : s.schedule = .powerOn :: es) : StepEffect s (s.setSchedule es).powerOn

/-- The engine's turn completes the held command, or changes nothing (R168, R176). -/
theorem stepEffect_of_engineTurn {s t : State} {es : List Event} (turn : s.schedule = [] ∨ s.schedule = .engine :: es)
    (h : engineTurn (s.setSchedule es) = .next t) : StepEffect s t := by
  rcases engineTurn_cases h with ⟨-, rfl⟩ | ⟨held, i, u, isCmd, performed, rfl⟩
  · exact .bookkeeping es s.answer s.draws
  · exact .completion es i u turn held isCmd performed

/-- A host read changes nothing of the block (R41). -/
theorem stepEffect_hostRead (s : State) (es : List Event) (off : Offset) :
    StepEffect s ((s.setSchedule es).hostRead off) := by
  rcases State.hostRead_cases off (s.setSchedule es) with ⟨-, h⟩ | ⟨t, -, -, -, h⟩ | ⟨t, -, -, h⟩ <;> rw [h]
  · exact .bookkeeping es (some .busError) s.draws
  · exact .bookkeeping es _ (s.draws + 1)
  · exact .bookkeeping es _ s.draws

/-- A host write is refused, dropped or done (R42). -/
theorem stepEffect_hostWrite {s : State} {off : Offset} {d : Word} {es : List Event}
    (event : s.schedule = .write off d :: es) : StepEffect s ((s.setSchedule es).hostWrite off d) := by
  rcases State.hostWrite_cases off d (s.setSchedule es) with ⟨-, h⟩ | ⟨t, named, held, locked, h⟩ |
    ⟨t, named, unlocked, h⟩ <;> rw [h]
  · exact .bookkeeping es (some .busError) s.draws
  · exact .dropped off d es t event named held locked
  · exact .written off d es t event named unlocked

/-- Every step that answers a next state has one of the six effects. -/
theorem step_effect {s t : State} (h : step s = .next t) : StepEffect s t := by
  rcases step_cases h with ⟨none, h⟩ | ⟨es, event, h⟩ | ⟨off, es, -, rfl⟩ |
    ⟨off, d, es, event, rfl⟩ | ⟨es, event, rfl⟩ | ⟨es, event, rfl⟩
  · have same : s.setSchedule [] = s := by rw [← none]; rfl
    exact stepEffect_of_engineTurn (.inl none) (same ▸ h)
  · exact stepEffect_of_engineTurn (.inr event) h
  · exact stepEffect_hostRead s es off
  · exact stepEffect_hostWrite event
  · exact .reset es event
  · exact .powerOn es event

/-- The engine's turn is no transaction of the host (R9). -/
theorem no_hostEvent_of_turn {s : State} {es : List Event} (turn : s.schedule = [] ∨ s.schedule = .engine :: es) :
    s.schedule = [] ∨ ∃ e es, s.schedule = e :: es ∧ isHostEvent e = false :=
  turn.imp id fun event => ⟨.engine, es, event, rfl⟩

end Sys2Proof.Machine

namespace Sys2Proof.Safety

open Sys2Proof.Machine

/-! ## The invariant, operation by operation (R27)

Each lemma names only the clauses of `Inv` that the operation touches; the others speak of fields it leaves alone. -/

theorem Inv.setSchedule {s : State} (inv : Inv s) (es : List Event) : Inv (s.setSchedule es) := { inv with }

theorem Inv.respond {s : State} (inv : Inv s) (a : Answer) : Inv (s.respond a) := { inv with }

theorem Inv.dropWrite {s : State} (inv : Inv s) : Inv s.dropWrite := { inv with }

/-- The code of a rejection is 1, 2 or 3 (R186). -/
theorem cmdError_code_bounds (e : CmdError) : CmdError.code e ≠ 0 ∧ (CmdError.code e).toNat ≤ 3 := by
  cases e <;> decide

/-- The code of a comparison is never `11` (R23). -/
theorem cmpCode_ne_three (a b : Big) : cmpCode a b ≠ 0b11 := by
  unfold cmpCode
  split
  · decide
  · split <;> decide

/-- A rejection while idle records a code that is not 0, unless one is recorded (R196). -/
theorem Inv.reject {s : State} (inv : Inv s) (idle : s.busy = false) (e : CmdError) (w : Word) : Inv (s.reject e w) := by
  obtain ⟨nonzero, small⟩ := cmdError_code_bounds e
  have recorded := inv.errCodeZero
  have recordedLe := inv.errCodeLe
  exact { inv with
    errCodeZero := by cases err : s.err <;> simp_all
    errCmdZero := fun h => by cases h
    errCodeLe := by cases err : s.err <;> simp_all
    heldAcceptable := fun h => by simp [idle] at h
    busyNotDone := fun h => by simp [idle] at h }

/-- An accepted issue holds a word that decodes to an acceptable command (R166). -/
theorem Inv.accept {s : State} (inv : Inv s) {w : Word} {i : Instr} (accepted : checkIssue w s.blen = .ok i) :
    Inv (s.accept w) :=
  { inv with
    heldAcceptable := fun _ => ⟨i, checkIssue_eq_ok.1 accepted⟩
    busyNotDone := fun _ => rfl }

theorem Inv.issue {s : State} (inv : Inv s) (w : Word) : Inv (s.issue w) := by
  rcases State.issue_cases w s with ⟨-, h⟩ | ⟨idle, e, -, h⟩ | ⟨-, i, accepted, h⟩ <;> rw [h]
  · exact inv.dropWrite
  · exact inv.reject idle e w
  · exact inv.accept accepted

/-- The host's clear of `ERR` clears ERRCODE and ERRCMD with it (R171). -/
theorem Inv.writeStatus {s : State} (inv : Inv s) (d : Word) : Inv (s.writeStatus d) := by
  have recorded := inv.errCodeZero
  have word := inv.errCmdZero
  have recordedLe := inv.errCodeLe
  have notDone := inv.busyNotDone
  rw [State.writeStatus_eq]
  exact { inv with
    errCodeZero := by cases clear : d.getLsbD 2 <;> simp_all
    errCmdZero := by cases clear : d.getLsbD 2 <;> simp_all
    errCodeLe := by cases clear : d.getLsbD 2 <;> simp_all
    busyNotDone := fun held => by simp [notDone held] }

/-- The host's write of a target that is not locked keeps the invariant (R42, R50). -/
theorem Inv.writeTarget {s : State} (inv : Inv s) {t : Target} (unlocked : s.busy = false ∨ t.writeLocked = false)
    (d : Word) : Inv (s.writeTarget t d) := by
  cases t with
  | status => exact inv.writeStatus d
  | cmd => exact inv.issue d
  | blen =>
    have idle : s.busy = false := unlocked.resolve_right (by decide)
    exact { inv with heldAcceptable := fun held => by simp [State.writeTarget, idle] at held }
  | bufWord w =>
    have inside : 4 * w.val + 3 < Config.bufBytes := by have := w.isLt; simp only [Config.bufBytes]; omega
    exact { inv with bufWf := memWrite32_wf inv.bufWf inside d }
  | _ => exact { inv with }

/-- A completion keeps the invariant: the engine is idle after it, and no command records an error (R168). -/
theorem Inv.finish_of_exec {s u : State} (inv : Inv s) {i : Instr} (performed : exec i s = .next u) : Inv u.finish := by
  obtain ⟨-, err, errCode, errCmd, -⟩ := exec_keeps performed
  exact {
    bufWf := by simpa using exec_keeps_wf performed inv.bufWf
    errCodeZero := by simpa [err, errCode] using inv.errCodeZero
    errCmdZero := by simpa [err, errCmd] using inv.errCmdZero
    errCodeLe := by simpa [errCode] using inv.errCodeLe
    cmpLegal := by
      by_cases changed : u.cmp = s.cmp
      · simpa [changed] using inv.cmpLegal
      · obtain ⟨a, b, -, value⟩ := exec_biCmp_of_cmp_ne performed changed
        simpa [value] using cmpCode_ne_three _ _
    heldAcceptable := fun held => by cases held
    busyNotDone := fun held => by cases held }

/-- The reset values meet the invariant, over any BUF in canonical form (R211). -/
theorem inv_resetControl {s : State} (wf : s.buf.wf = true) : Inv s.resetControl where
  bufWf := wf
  errCodeZero := by simp [State.reset]
  errCmdZero := fun _ => rfl
  errCodeLe := by simp [State.reset]
  cmpLegal := by simp [State.reset]
  heldAcceptable := fun held => by cases held
  busyNotDone := fun held => by cases held

theorem Inv.applyReset {s : State} (inv : Inv s) : Inv s.applyReset := by
  obtain ⟨u, buf, h⟩ := State.applyReset_eq_resetControl s
  rw [h]
  refine inv_resetControl ?_
  rcases buf with buf | buf <;> rw [buf]
  · exact inv.bufWf
  · exact memFill_wf inv.bufWf _ (Nat.min_le_right _ _)

theorem inv_powerOn (s : State) : Inv s.powerOn := by
  obtain ⟨f, m, wf, h⟩ := State.powerOn_cases s
  rw [h]
  exact inv_resetControl wf

/-! ## The obligations -/

/-- Settles O27: each of the six effects of a step keeps the invariant. -/
theorem everyStepKeepsTheInvariant : Obligations.EveryStepKeepsTheInvariant := by
  intro s t inv h
  cases step_effect h with
  | bookkeeping => exact { inv with }
  | completion es i u _ _ _ performed => exact (inv.setSchedule es).finish_of_exec performed
  | dropped _ _ es => exact (inv.setSchedule es).dropWrite.respond .ok
  | written off d es t _ _ unlocked => exact ((inv.setSchedule es).writeTarget unlocked d).respond .ok
  | reset es => exact (inv.setSchedule es).applyReset
  | powerOn es => exact inv_powerOn _

/-- Settles O29: among the effects of a step only a BI_CMP that completes and the resets write `CMP`. -/
theorem onlyBiCmpChangesCmp : Obligations.OnlyBiCmpChangesCmp := by
  intro s t h changed
  cases step_effect h with
  | bookkeeping => exact absurd rfl changed
  | completion es i u _ held isCmd performed =>
    obtain ⟨a, b, rfl, value⟩ := exec_biCmp_of_cmp_ne performed changed
    exact .inl ⟨held, rfl, a, b, isCmd, value⟩
  | dropped => exact absurd rfl changed
  | written => simp at changed
  | reset es event => exact .inr ⟨.reset, es, event, rfl⟩
  | powerOn es event => exact .inr ⟨.powerOn, es, event, rfl⟩

/-- Settles O30, effect by effect. -/
theorem whatCanChangeAQRegister : Obligations.WhatCanChangeAQRegister := by
  intro s t r h changed
  cases step_effect h with
  | bookkeeping => exact absurd rfl changed
  | completion es i u turn held isCmd performed =>
    exact .inl ⟨held, ⟨i, isCmd, exec_destQ_of_readQ_ne performed changed⟩, no_hostEvent_of_turn turn⟩
  | dropped => exact absurd rfl changed
  | written off d es t event named unlocked =>
    obtain ⟨j, rfl⟩ := State.target_of_writeTarget_readQ_ne changed
    obtain rfl : off = qOffset r j := windowTarget_inj named (windowTarget_qOffset r j.isLt)
    exact .inr (.inl ⟨unlocked.resolve_right (by simp [Target.writeLocked]), j, d, es, j.isLt, event⟩)
  | reset es event =>
    obtain ⟨held, abandoned⟩ := State.abandoned_of_applyReset_readQ_ne changed
    exact .inl ⟨held, abandoned, .inr ⟨.reset, es, event, rfl⟩⟩
  | powerOn es event => exact .inr (.inr ⟨es, event⟩)

/-- Settles O31, effect by effect. -/
theorem whatCanChangeABufByte : Obligations.WhatCanChangeABufByte := by
  intro s t a h changed
  cases step_effect h with
  | bookkeeping => exact absurd rfl changed
  | completion es i u turn held isCmd performed =>
    obtain ⟨cipher, below⟩ := exec_writesBuf_of_memRead_ne performed changed
    exact .inl ⟨held, below, ⟨i, isCmd, cipher⟩, no_hostEvent_of_turn turn⟩
  | dropped => exact absurd rfl changed
  | written off d es t event named unlocked =>
    obtain ⟨w, rfl, word⟩ := State.target_of_writeTarget_memRead_ne changed
    obtain rfl : off = bufOffset (a / 4) := word ▸ windowTarget_inj named (windowTarget_bufOffset w.isLt)
    have inside : a < 4096 := by have := w.isLt; omega
    exact .inr (.inl ⟨unlocked.resolve_right (by simp [Target.writeLocked]), inside, d, es, event⟩)
  | reset es event =>
    obtain ⟨held, below, abandoned⟩ := State.abandoned_of_applyReset_memRead_ne changed
    exact .inl ⟨held, below, abandoned, .inr ⟨.reset, es, event, rfl⟩⟩
  | powerOn es event => exact .inr (.inr ⟨es, event⟩)

/-- The causes of a change of BLEN (R15). -/
theorem step_blen_ne {s t : State} (h : step s = .next t) (changed : t.blen ≠ s.blen) :
    (s.busy = false ∧ ∃ es, s.schedule = .write 0x000C t.blen :: es) ∨
      (∃ e es, s.schedule = e :: es ∧ isResetEvent e = true) := by
  cases step_effect h with
  | bookkeeping => exact absurd rfl changed
  | completion es i u _ _ _ performed =>
    obtain ⟨-, -, -, -, -, blen, -⟩ := exec_keeps performed
    exact absurd blen changed
  | dropped => exact absurd rfl changed
  | written off d es t event named unlocked =>
    rw [State.respond_blen, State.writeTarget_blen] at changed ⊢
    by_cases isBlen : t = .blen
    · subst isBlen
      obtain rfl : off = 0x000C := windowTarget_inj named windowTarget_blen
      exact .inl ⟨unlocked.resolve_right (by decide), es, event⟩
    · rw [if_neg isBlen] at changed
      exact absurd rfl changed
  | reset es event => exact .inr ⟨.reset, es, event, rfl⟩
  | powerOn es event => exact .inr ⟨.powerOn, es, event, rfl⟩

/-- The causes of a change of CRC (R16). -/
theorem step_crc_ne {s t : State} (h : step s = .next t) (changed : t.crc ≠ s.crc) :
    (s.busy = true ∧ t.busy = false ∧ (decode s.cmdr = .ok .crcInit ∨ decode s.cmdr = .ok .crcUpd)) ∨
      (s.busy = false ∧ ∃ es, s.schedule = .write 0x0010 t.crc :: es) ∨
      (∃ e es, s.schedule = e :: es ∧ isResetEvent e = true) := by
  cases step_effect h with
  | bookkeeping => exact absurd rfl changed
  | completion es i u _ held isCmd performed =>
    refine .inl ⟨held, rfl, (exec_crc_command_of_crc_ne performed changed).imp ?_ ?_⟩ <;> rintro rfl <;> exact isCmd
  | dropped => exact absurd rfl changed
  | written off d es t event named unlocked =>
    rw [State.respond_crc, State.writeTarget_crc] at changed ⊢
    by_cases isCrc : t = .crc
    · subst isCrc
      obtain rfl : off = 0x0010 := windowTarget_inj named windowTarget_crc
      exact .inr (.inl ⟨unlocked.resolve_right (by decide), es, event⟩)
    · rw [if_neg isCrc] at changed
      exact absurd rfl changed
  | reset es event => exact .inr (.inr ⟨.reset, es, event, rfl⟩)
  | powerOn es event => exact .inr (.inr ⟨.powerOn, es, event, rfl⟩)

/-- Settles O32. -/
theorem whatCanChangeBlenAndCrc : Obligations.WhatCanChangeBlenAndCrc :=
  ⟨fun _ _ => step_blen_ne, fun _ _ => step_crc_ne⟩

/-- The recorded error is as before (R21). -/
def SameError (s t : State) : Prop := t.err = s.err ∧ t.errCode = s.errCode ∧ t.errCmd = s.errCmd

/-- What a host write can do to the recorded error (R166, R171): nothing, the clear by a 1 in bit 2 of STATUS, or the
record of a rejection. -/
theorem writeTarget_error_cases (s : State) (t : Target) (d : Word) :
    SameError s (s.writeTarget t d) ∨
    (t = .status ∧ d.getLsbD 2 = true ∧ (s.writeTarget t d).err = false) ∨
    (t = .cmd ∧ s.busy = false ∧ ∃ e, checkIssue d s.blen = .error e ∧ s.writeTarget t d = s.reject e d) := by
  cases t with
  | status =>
    simp only [State.writeTarget, State.writeStatus_eq, SameError]
    cases clear : d.getLsbD 2 <;> simp
  | cmd =>
    rcases State.issue_cases d s with ⟨-, h⟩ | ⟨idle, e, rejected, h⟩ | ⟨-, i, -, h⟩
    · exact .inl (by simp [State.writeTarget, h, SameError])
    · exact .inr (.inr ⟨rfl, idle, e, rejected, h⟩)
    · exact .inl (by simp [State.writeTarget, h, SameError])
  | _ => exact .inl ⟨rfl, rfl, rfl⟩

/-- What a step can do to the recorded error (R21, R196, R197). -/
theorem step_error_cases {s t : State} (h : step s = .next t) :
    SameError s t ∨
    (t.err = false ∧ ((∃ d es, s.schedule = .write 0x0004 d :: es ∧ d.getLsbD 2 = true) ∨
      ∃ e es, s.schedule = e :: es ∧ isResetEvent e = true)) ∨
    (s.busy = false ∧ ∃ w es e, s.schedule = .write 0x0008 w :: es ∧ checkIssue w s.blen = .error e ∧
      t.err = true ∧ t.errCode = (if s.err then s.errCode else CmdError.code e) ∧
      t.errCmd = if s.err then s.errCmd else w) := by
  cases step_effect h with
  | bookkeeping => exact .inl ⟨rfl, rfl, rfl⟩
  | completion es i u _ _ _ performed =>
    obtain ⟨-, err, errCode, errCmd, -⟩ := exec_keeps performed
    exact .inl ⟨err, errCode, errCmd⟩
  | dropped => exact .inl ⟨rfl, rfl, rfl⟩
  | written off d es t event named unlocked =>
    rcases writeTarget_error_cases (s.setSchedule es) t d with same | ⟨rfl, bit, clear⟩ |
      ⟨rfl, idle, e, rejected, h⟩
    · exact .inl same
    · obtain rfl : off = 0x0004 := windowTarget_inj named windowTarget_status
      exact .inr (.inl ⟨clear, .inl ⟨d, es, event, bit⟩⟩)
    · obtain rfl : off = 0x0008 := windowTarget_inj named windowTarget_cmd
      rw [h]
      exact .inr (.inr ⟨idle, d, es, e, event, rejected, rfl, rfl, rfl⟩)
  | reset es event =>
    obtain ⟨u, -, h⟩ := State.applyReset_eq_resetControl (s.setSchedule es)
    exact .inr (.inl ⟨h ▸ rfl, .inr ⟨.reset, es, event, rfl⟩⟩)
  | powerOn es event => exact .inr (.inl ⟨rfl, .inr ⟨.powerOn, es, event, rfl⟩⟩)

/-- Settles O33, by what a step can do to the recorded error. -/
theorem firstErrorWins : Obligations.FirstErrorWins := by
  intro s t h
  rcases step_error_cases h with ⟨err, errCode, errCmd⟩ | ⟨clear, cause⟩ |
    ⟨idle, w, es, e, event, rejected, err, errCode, errCmd⟩
  · exact ⟨fun _ _ => ⟨errCode, errCmd⟩, fun was now => by simp [← err, now] at was,
      fun was now => by simp [err, was] at now⟩
  · exact ⟨fun _ now => by simp [clear] at now, fun _ _ => cause, fun _ now => by simp [clear] at now⟩
  · refine ⟨fun was _ => ?_, fun _ now => by simp [err] at now, fun was _ => ⟨idle, w, es, e, event, rejected, ?_⟩⟩
    · simpa [was] using And.intro errCode errCmd
    · simpa [was] using And.intro errCode errCmd

end Sys2Proof.Safety
end

section
/-! PROOFS. The host window (`20_memory.md`): the map, what a transaction reads and writes while the engine is idle and
while it holds a command (R40 to R51), and that a held command's operands are those at issue (R46, R54). The first parts
say, for each operation of the window and for the commands, what it reads; each obligation is then a short use. -/

namespace Sys2Proof

open Laws.EncodedFields

/-! ## A command is read back from its encoding (R73 to R75) -/

/-- The fields of an encoded command, for every command (R71, R74). -/
theorem encodedFields (i : Instr) : Laws.EncodedFields.Statement i := by
  cases i with
  | biAdd d s1 s2 => exact biAdd d s1 s2
  | biShl1 d s1 => exact biShl1 d s1
  | biShr1 d s1 => exact biShr1 d s1
  | biCmp s1 s2 => exact biCmp s1 s2
  | biFix d s1 m => exact biFix d s1 m
  | mxMulmod d s1 s2 m => exact mxMulmod d s1 s2 m
  | mxModexp d s1 s2 m => exact mxModexp d s1 s2 m
  | bcEnc k => exact bcEnc k
  | bcDec k => exact bcDec k
  | crcInit => exact crcInit
  | crcUpd => exact crcUpd

/-- The decoder dispatches on the opcode, finds every unused field 0 and every used field a register. -/
theorem decode_encode (i : Instr) : decode (encode i) = .ok i := by
  obtain ⟨op, rd, rs1, rs2, rm, z⟩ := encodedFields i
  have unused {n : Nat} {f : BitVec n} (h : f.toNat = 0) : mustBeZero f = .ok () := mustBeZero_eq_ok.2 h
  have used {f : BitVec 4} {r : QReg} (h : f.toNat = r.index) : usedField f = .ok r := usedField_eq_ok.2 h
  unfold decode
  rw [op, unused z]
  cases i with
  | biAdd => rw [unused rm, used rd, used rs1, used rs2]; rfl
  | biShl1 | biShr1 => rw [unused rm, unused rs2, used rd, used rs1]; rfl
  | biCmp => rw [unused rm, unused rd, used rs1, used rs2]; rfl
  | biFix => rw [unused rs2, used rd, used rs1, used rm]; rfl
  | mxMulmod | mxModexp => rw [used rd, used rs1, used rs2, used rm]; rfl
  | bcEnc | bcDec => rw [unused rm, unused rs2, unused rd, used rs1]; rfl
  | crcInit | crcUpd => rw [unused rm, unused rs2, unused rs1, unused rd]; rfl

end Sys2Proof

namespace Sys2Proof.Machine

open Sys2Proof.Safety

/-! ## Transactions, as equations (R41, R42, R50, R51) -/

/-- A write that is not locked reaches its target. -/
theorem step_of_unlocked_write {s : State} {off : Offset} {d : Word} {es : List Event} {t : Target}
    (event : s.schedule = .write off d :: es) (named : windowTarget off = some t)
    (unlocked : s.busy = false ∨ t.writeLocked = false) :
    step s = .next (((s.setSchedule es).writeTarget t d).respond .ok) := by
  rw [step_of_write event named]
  rcases unlocked with h | h <;> simp [h]

/-- A write to locked state while busy is dropped. -/
theorem step_of_locked_write {s : State} {off : Offset} {d : Word} {es : List Event} {t : Target}
    (event : s.schedule = .write off d :: es) (named : windowTarget off = some t) (held : s.busy = true)
    (locked : t.writeLocked = true) : step s = .next ((s.setSchedule es).dropWrite.respond .ok) := by
  rw [step_of_write event named]
  simp [held, locked]

/-- A read that is specified answers the word its target holds. -/
theorem step_of_exact_read {s : State} {off : Offset} {es : List Event} {t : Target}
    (event : s.schedule = .read off :: es) (named : windowTarget off = some t)
    (specified : s.busy = false ∨ t.readUnspecified = false) :
    step s = .next ((s.setSchedule es).respond (.data (s.targetWord t))) := by
  rw [step_of_read event named]
  have same : (s.setSchedule es).targetWord t = s.targetWord t := by cases t <;> rfl
  rcases specified with h | h <;> simp [h, same]

/-- A read that is unspecified while busy answers a drawn value. -/
theorem step_of_drawn_read {s : State} {off : Offset} {es : List Event} {t : Target}
    (event : s.schedule = .read off :: es) (named : windowTarget off = some t) (held : s.busy = true)
    (unspecified : t.readUnspecified = true) :
    step s = .next ((s.setSchedule es).respond (.data (Config.busyReadValue s.draws))).draw := by
  rw [step_of_read event named]
  simp [held, unspecified]

/-- A data offset names a word of a Q register or of BUF (R44). -/
theorem windowTarget_of_dataOffset {off : Offset} (data : dataOffset off) :
    (∃ r j, windowTarget off = some (.qWord r j)) ∨ ∃ w, windowTarget off = some (.bufWord w) := by
  obtain ⟨aligned, range⟩ := data
  obtain ⟨t, named⟩ : ∃ t, windowTarget off = some t := by
    refine Option.ne_none_iff_exists'.1 fun none => ?_
    have bad := (windowTarget_eq_none_iff off).1 none
    simp only [badOffset] at bad
    omega
  have stands := windowTarget_offset named
  cases t with
  | qWord r j => exact .inl ⟨r, j, named⟩
  | bufWord w => exact .inr ⟨w, named⟩
  | _ => simp only [Target.offset] at stands; omega

/-- CRC and the data words are locked and unspecified to read while busy (R44). -/
theorem locked_of_crc_or_dataOffset {off : Offset} (h : off = 0x0010 ∨ dataOffset off) :
    ∃ t, windowTarget off = some t ∧ t.writeLocked = true ∧ t.readUnspecified = true := by
  rcases h with rfl | data
  · exact ⟨_, windowTarget_crc, rfl, rfl⟩
  · rcases windowTarget_of_dataOffset data with ⟨r, j, named⟩ | ⟨w, named⟩ <;> exact ⟨_, named, rfl, rfl⟩

/-- A write that is never locked does not look at `BUSY` and leaves it alone (R50). -/
theorem State.writeTarget_busy_comm {t : Target} (unlocked : t.writeLocked = false) (d : Word) (s : State) (b : Bool) :
    State.writeTarget t d { s with busy := b } = { s.writeTarget t d with busy := b } := by
  cases t with
  | ctrl | errCmd => rfl
  | status => simp only [State.writeTarget, State.writeStatus_eq]
  | _ => cases unlocked

/-! ## Words and their bytes (R44 to R46) -/

/-- CTRL shows `IE` at bit 0 and zeros (R17, R44). -/
theorem ctrlWord_bits (s : State) : (ctrlWord s).getLsbD 0 = s.ie ∧ (ctrlWord s).extractLsb' 1 31 = 0 := by
  refine ⟨(flagAt_bit s.ie 0 0 (by decide)).trans (by simp), BitVec.eq_of_getLsbD_eq fun n hn => ?_⟩
  simp [BitVec.getLsbD_extractLsb', ctrlWord, flagAt_bit]

/-- A byte of the slice `Q[127-32j : 96-32j]` is a byte of the register, in reverse order (R45). -/
theorem byteOf_slice (v : Big) {j k : Nat} (hj : j < 4) (hk : k < 4) :
    byteOf (v.extractLsb' (96 - 32 * j) 32) (3 - k) = bigByte v (4 * j + k) := by
  refine BitVec.eq_of_getLsbD_eq fun n hn => ?_
  have place : 96 - 32 * j + (8 * (3 - k) + n) = 8 * (15 - (4 * j + k)) + n := by omega
  have inside : 8 * (3 - k) + n < 32 := by omega
  rw [getLsbD_byteOf, getLsbD_bigByte, BitVec.getLsbD_extractLsb', place]
  simp [inside]

/-- A window word of a register is its byte-swapped slice (R45). -/
theorem bswap32_slice (v : Big) {j : Nat} (hj : j < 4) : bswap32 (v.extractLsb' (96 - 32 * j) 32) = bigWord v j := by
  have b0 : byteOf (v.extractLsb' (96 - 32 * j) 32) 3 = bigByte v (4 * j) := byteOf_slice v hj (k := 0) (by decide)
  have b1 : byteOf (v.extractLsb' (96 - 32 * j) 32) 2 = bigByte v (4 * j + 1) := byteOf_slice v hj (k := 1) (by decide)
  have b2 : byteOf (v.extractLsb' (96 - 32 * j) 32) 1 = bigByte v (4 * j + 2) := byteOf_slice v hj (k := 2) (by decide)
  have b3 : byteOf (v.extractLsb' (96 - 32 * j) 32) 0 = bigByte v (4 * j + 3) := byteOf_slice v hj (k := 3) (by decide)
  rw [bswap32, bigWord, b0, b1, b2, b3]

/-- The bytes of four bytes put together are those bytes, by index (R6). -/
theorem byteOf_le32_index (byte : Nat → Byte) {k : Nat} (hk : k < 4) :
    byteOf (le32 (byte 0) (byte 1) (byte 2) (byte 3)) k = byte k := by
  obtain ⟨b0, b1, b2, b3⟩ := byteOf_le32 (byte 0) (byte 1) (byte 2) (byte 3)
  match k, hk with
  | 0, _ => exact b0
  | 1, _ => exact b1
  | 2, _ => exact b2
  | 3, _ => exact b3

/-- The bytes of a window word (R45). -/
theorem byteOf_bigWord (v : Big) (j : Nat) {k : Nat} (hk : k < 4) : byteOf (bigWord v j) k = bigByte v (4 * j + k) :=
  byteOf_le32_index (fun i => bigByte v (4 * j + i)) hk

/-- The bytes of a word of BUF (R46). -/
theorem byteOf_memRead32 (m : Memory) (a : Nat) {k : Nat} (hk : k < 4) : byteOf (memRead32 m a) k = memRead m (a + k) :=
  byteOf_le32_index (fun i => memRead m (a + i)) hk

/-- A word write replaces its four bytes, the least significant first, and no other (R46). -/
theorem memRead_memWrite32_range {m : Memory} (wf : m.wf = true) {a : Nat} (inside : a + 3 < Config.bufBytes) (d : Word)
    (b : Nat) :
    memRead (memWrite32 m a d) b = if a ≤ b ∧ b < a + 4 then byteOf d (b - a) else memRead m b := by
  split
  · rename_i range
    obtain ⟨k, rfl⟩ : ∃ k, b = a + k := ⟨b - a, by omega⟩
    have read := byteOf_memRead32 (memWrite32 m a d) a (k := k) (by omega)
    rw [memRead32_memWrite32_same wf inside] at read
    rw [← read, Nat.add_sub_cancel_left]
  · exact memRead_memWrite32_ne m d (by omega)

/-! ## What the host can do while a command is held (R50, R54) -/

/-- What a command reads and writes is the same in two states. -/
structure SameData (s t : State) : Prop where
  q : t.q = s.q
  buf : t.buf = s.buf
  blen : t.blen = s.blen
  crc : t.crc = s.crc
  cmp : t.cmp = s.cmp

/-- The command stays held over the same data. -/
structure StillHeld (s t : State) : Prop extends SameData s t where
  cmdr : t.cmdr = s.cmdr
  busy : t.busy = s.busy

theorem SameData.trans {s t u : State} (h : SameData s t) (h' : SameData t u) : SameData s u where
  q := h'.q.trans h.q
  buf := h'.buf.trans h.buf
  blen := h'.blen.trans h.blen
  crc := h'.crc.trans h.crc
  cmp := h'.cmp.trans h.cmp

theorem StillHeld.refl (s : State) : StillHeld s s := ⟨⟨rfl, rfl, rfl, rfl, rfl⟩, rfl, rfl⟩

theorem StillHeld.trans {s t u : State} (h : StillHeld s t) (h' : StillHeld t u) : StillHeld s u where
  toSameData := h.toSameData.trans h'.toSameData
  cmdr := h'.cmdr.trans h.cmdr
  busy := h'.busy.trans h.busy

theorem stillHeld_setSchedule (s : State) (es : List Event) : StillHeld s (s.setSchedule es) :=
  { StillHeld.refl s with }

theorem stillHeld_respond (s : State) (a : Answer) : StillHeld s (s.respond a) := { StillHeld.refl s with }

theorem stillHeld_draw (s : State) : StillHeld s s.draw := { StillHeld.refl s with }

theorem stillHeld_dropWrite (s : State) : StillHeld s s.dropWrite := { StillHeld.refl s with }

/-- A write that is never locked touches no operand and no held word (R50). -/
theorem stillHeld_writeTarget {t : Target} (unlocked : t.writeLocked = false) (d : Word) (s : State) :
    StillHeld s (s.writeTarget t d) := by
  cases t with
  | ctrl | errCmd => exact { StillHeld.refl s with }
  | status =>
    simp only [State.writeTarget, State.writeStatus_eq]
    exact { StillHeld.refl s with }
  | _ => cases unlocked

/-- A read changes nothing of the block (R41). -/
theorem stillHeld_hostRead (s : State) (off : Offset) : StillHeld s (s.hostRead off) := by
  rcases State.hostRead_cases off s with ⟨-, h⟩ | ⟨t, -, -, -, h⟩ | ⟨t, -, -, h⟩ <;> rw [h]
  · exact stillHeld_respond s _
  · exact (stillHeld_respond s _).trans (stillHeld_draw _)
  · exact stillHeld_respond s _

/-- A write while busy is refused, dropped, or goes to a target that is never locked (R42, R50). -/
theorem stillHeld_hostWrite {s : State} (held : s.busy = true) (off : Offset) (d : Word) :
    StillHeld s (s.hostWrite off d) := by
  rcases State.hostWrite_cases off d s with ⟨-, h⟩ | ⟨t, -, -, -, h⟩ | ⟨t, -, unlocked, h⟩ <;> rw [h]
  · exact stillHeld_respond s _
  · exact (stillHeld_dropWrite s).trans (stillHeld_respond _ _)
  · have unlocked := unlocked.resolve_left (by simp [held])
    exact (stillHeld_writeTarget unlocked d s).trans (stillHeld_respond _ _)

/-- One host transaction leaves the command held (R54). -/
theorem step_stillHeld {s : State} {e : Event} {es : List Event} (held : s.busy = true) (event : s.schedule = e :: es)
    (host : isHostEvent e = true) : ∃ t, step s = .next t ∧ StillHeld s t ∧ t.schedule = es := by
  have taken := stillHeld_setSchedule s es
  have ⟨t, first, kept⟩ : ∃ t, step s = .next t ∧ StillHeld s t := by
    cases e with
    | read off =>
      exact ⟨(s.setSchedule es).hostRead off, by simp only [step, event], taken.trans (stillHeld_hostRead _ off)⟩
    | write off d =>
      exact ⟨(s.setSchedule es).hostWrite off d, by simp only [step, event],
        taken.trans (stillHeld_hostWrite (s := s.setSchedule es) held off d)⟩
    | _ => cases host
  exact ⟨t, first, kept, step_schedule event first⟩

/-- Host transactions, however many, leave the command held (R54). -/
theorem run_stillHeld {s : State} {es rest : List Event} (held : s.busy = true) (events : s.schedule = es ++ rest)
    (host : ∀ e ∈ es, isHostEvent e = true) :
    ∃ t, run es.length s = .next t ∧ StillHeld s t ∧ t.schedule = rest := by
  induction es generalizing s with
  | nil => exact ⟨s, rfl, .refl s, events⟩
  | cons e es ih =>
    obtain ⟨u, first, kept, tail⟩ := step_stillHeld held events (host e (by simp))
    obtain ⟨t, later, kept', done⟩ := ih (kept.busy.trans held) tail fun e' h => host e' (by simp [h])
    exact ⟨t, (run_succ first).trans later, kept.trans kept', done⟩

/-! ## What a command reads (R8, R170) -/

/-- A command is a function of the register file, or a cipher command, or a CRC command. -/
theorem exec_reads_cases (i : Instr) :
    (∃ (d : QReg) (v : QFile → Big), ∀ s : State, exec i s = .next (s.writeQ d (v s.q))) ∨
    (∃ c : QFile → BitVec 2, ∀ s : State, exec i s = .next (s.setCmp (c s.q))) ∨
    (∃ k, i = .bcEnc k) ∨ (∃ k, i = .bcDec k) ∨ i = .crcInit ∨ i = .crcUpd := by
  cases i with
  | biAdd d a b => exact .inl ⟨d, fun f => add128 (f.get a) (f.get b), fun _ => rfl⟩
  | biShl1 d a => exact .inl ⟨d, fun f => shl1 (f.get a), fun _ => rfl⟩
  | biShr1 d a => exact .inl ⟨d, fun f => shr1 (f.get a), fun _ => rfl⟩
  | biCmp a b => exact .inr (.inl ⟨fun f => cmpCode (f.get a) (f.get b), fun _ => rfl⟩)
  | biFix d a m => exact .inl ⟨d, fun f => fix (f.get a) (f.get m), fun _ => rfl⟩
  | mxMulmod d a b m => exact .inl ⟨d, fun f => mulMod (f.get a) (f.get b) (f.get m), fun _ => rfl⟩
  | mxModexp d g e m => exact .inl ⟨d, fun f => modExp (f.get g) (f.get e) (f.get m), fun _ => rfl⟩
  | bcEnc k => exact .inr (.inr (.inl ⟨k, rfl⟩))
  | bcDec k => exact .inr (.inr (.inr (.inl ⟨k, rfl⟩)))
  | crcInit => exact .inr (.inr (.inr (.inr (.inl rfl))))
  | crcUpd => exact .inr (.inr (.inr (.inr (.inr rfl))))

/-- BC_ENC for an accepted length (R137). -/
theorem exec_bcEnc {k : QReg} {s : State} (len : cipherLengthOk s.blen.toNat = true) :
    exec (.bcEnc k) s = .next (s.setBuf (encBuffer (keyWords (s.readQ k)) s.blen.toNat s.buf)) := if_pos len

/-- BC_DEC for an accepted length (R138). -/
theorem exec_bcDec {k : QReg} {s : State} (len : cipherLengthOk s.blen.toNat = true) :
    exec (.bcDec k) s = .next (s.setBuf (decBuffer (keyWords (s.readQ k)) s.blen.toNat s.buf)) := if_pos len

/-- CRC_UPD for an accepted length (R153). -/
theorem exec_crcUpd {s : State} (len : crcLengthOk s.blen.toNat = true) :
    exec .crcUpd s = .next (s.setCrc (crcUpdate s.crc (memBytes s.buf 0 s.blen.toNat))) := if_pos len

/-- Performed with a length that its issue rejects, a command stops: the model's own stop (log entry 7). -/
theorem exec_fault_of_not_acceptable {i : Instr} {s : State} (bad : ¬ acceptable i s.blen = true) :
    exec i s = .fault .bufferLengthOutOfRange := by
  cases i with
  | bcEnc | bcDec | crcUpd => exact if_neg bad
  | _ => exact absurd rfl bad

/-- A command that completes had an acceptable length (R76). -/
theorem acceptable_of_exec {i : Instr} {s u : State} (performed : exec i s = .next u) : acceptable i s.blen = true := by
  by_contra bad
  rw [exec_fault_of_not_acceptable bad] at performed
  cases performed

/-- A command over the same data completes with the same data (R54, R170). -/
theorem exec_sameData {i : Instr} {s s' u : State} (same : SameData s s') (performed : exec i s = .next u) :
    ∃ u', exec i s' = .next u' ∧ SameData u u' := by
  obtain ⟨q, buf, blen, crc, cmp⟩ := same
  have len := acceptable_of_exec performed
  have len' : acceptable i s'.blen = true := blen ▸ len
  rcases exec_reads_cases i with ⟨d, v, value⟩ | ⟨c, value⟩ | ⟨k, rfl⟩ | ⟨k, rfl⟩ | rfl | rfl
  · cases (value s).symm.trans performed
    exact ⟨_, value s', by simp [q], buf, blen, crc, cmp⟩
  · cases (value s).symm.trans performed
    exact ⟨_, value s', q, buf, blen, crc, by simp [q]⟩
  · cases (exec_bcEnc len).symm.trans performed
    exact ⟨_, exec_bcEnc len', q, by simp [State.readQ, q, buf, blen], blen, crc, cmp⟩
  · cases (exec_bcDec len).symm.trans performed
    exact ⟨_, exec_bcDec len', q, by simp [State.readQ, q, buf, blen], blen, crc, cmp⟩
  · cases performed
    exact ⟨_, rfl, q, buf, blen, rfl, cmp⟩
  · cases (exec_crcUpd len).symm.trans performed
    exact ⟨_, exec_crcUpd len', q, buf, blen, by simp [buf, blen, crc], cmp⟩

/-- The engine's turn completes the held command (R168). -/
theorem step_of_engine {s u : State} {i : Instr} {es : List Event} (event : s.schedule = .engine :: es)
    (held : s.busy = true) (isCmd : decode s.cmdr = .ok i) (performed : exec i (s.setSchedule es) = .next u) :
    step s = .next u.finish := by
  simp only [step, event, engineTurn, State.setSchedule_busy, State.setSchedule_cmdr, held, if_true, isCmd, performed,
    finishOutcome]

/-- A held command completes after host transactions, however many, with the data its rule gives on the data at hand
(R54, R168). -/
theorem run_completes {s u : State} {i : Instr} {es rest : List Event} (held : s.busy = true)
    (isCmd : decode s.cmdr = .ok i) (performed : exec i s = .next u) (host : ∀ e ∈ es, isHostEvent e = true)
    (events : s.schedule = es ++ .engine :: rest) :
    ∃ t, run (es.length + 1) s = .next t ∧ SameData u t ∧ t.cmdr = s.cmdr ∧ t.busy = false ∧ t.done = true ∧
      t.schedule = rest := by
  obtain ⟨v, ran, kept, turn⟩ := run_stillHeld held events host
  have same : SameData s (v.setSchedule rest) := { kept with }
  obtain ⟨w, performed', same'⟩ := exec_sameData same performed
  have completed := step_of_engine turn (kept.busy.trans held) (kept.cmdr ▸ isCmd) performed'
  obtain ⟨-, -, -, -, -, -, cmdr, schedule, -⟩ := exec_keeps performed'
  refine ⟨w.finish, ?_, { same' with }, cmdr.trans kept.cmdr, rfl, rfl, schedule⟩
  rw [run_add ran, run_succ completed]
  rfl

/-- A write to CMD of a command that its length check accepts, while idle, issues it over the data at hand (R166). -/
theorem step_of_issue {s : State} {i : Instr} {es : List Event} (idle : s.busy = false)
    (event : s.schedule = .write 0x0008 (encode i) :: es) (len : acceptable i s.blen = true) :
    ∃ t, step s = .next t ∧ SameData s t ∧ t.cmdr = encode i ∧ t.busy = true ∧ t.schedule = es := by
  have accepted : checkIssue (encode i) s.blen = .ok i := checkIssue_eq_ok.2 ⟨decode_encode i, len⟩
  have issued : (s.setSchedule es).issue (encode i) = (s.setSchedule es).accept (encode i) := by
    simp only [State.issue, State.setSchedule_busy, State.setSchedule_blen, idle, accepted]
    rfl
  refine ⟨_, step_of_unlocked_write event windowTarget_cmd (.inl idle), ?_⟩
  rw [State.writeTarget, issued]
  exact ⟨⟨rfl, rfl, rfl, rfl, rfl⟩, rfl, rfl, rfl⟩

/-! ## The bytes of BUF below a bound (R46) -/

/-- Two contents of BUF in canonical form hold the same bytes below `n`. -/
structure AgreeBelow (n : Nat) (m m' : Memory) : Prop where
  wf : m.wf = true
  wf' : m'.wf = true
  same : ∀ a, a < n → memRead m' a = memRead m a

namespace AgreeBelow

variable {n : Nat} {m m' : Memory} (f : Word → Word → Word × Word)

theorem word (h : AgreeBelow n m m') {a : Nat} (below : a + 4 ≤ n) : memRead32 m' a = memRead32 m a :=
  memRead32_congr fun _ _ => h.same _ (by omega)

theorem write (h : AgreeBelow n m m') {a : Nat} (inside : a + 4 ≤ Config.bufBytes) (d : Word) :
    AgreeBelow n (memWrite32 m a d) (memWrite32 m' a d) where
  wf := memWrite32_wf h.wf inside d
  wf' := memWrite32_wf h.wf' inside d
  same b below := by
    rw [memRead_memWrite32_range h.wf inside, memRead_memWrite32_range h.wf' inside, h.same b below]

theorem block (h : AgreeBelow n m m') (bound : n ≤ Config.bufBytes) {o : Nat} (below : o + 8 ≤ n) :
    AgreeBelow n (blockAt f o m) (blockAt f o m') := by
  simp only [blockAt, h.word (show o + 4 ≤ n by omega), h.word (show o + 4 + 4 ≤ n by omega)]
  exact (h.write (by omega) _).write (by omega) _

theorem blocks (h : AgreeBelow n m m') (bound : n ≤ Config.bufBytes) {k : Nat} (below : 8 * k ≤ n) :
    AgreeBelow n (wholeBlocks f k m) (wholeBlocks f k m') := by
  induction k with
  | zero => exact h
  | succ k ih => exact (ih (by omega)).block f bound (by omega)

/-- Encryption reads no byte from the length on (R46, R137). -/
theorem encBuffer (h : AgreeBelow n m m') (k : Key) (len : cipherLengthOk n = true) :
    AgreeBelow n (encBuffer k n m) (encBuffer k n m') := by
  rw [cipherLengthOk_iff] at len
  have bound : n ≤ Config.bufBytes := by simp only [Config.bufBytes] at *; omega
  have whole := h.blocks (encBlock k) bound (k := n / 8) (by omega)
  simp only [Machine.encBuffer]
  split
  · exact whole
  · exact whole.block _ bound (by omega)

/-- Decryption reads no byte from the length on (R46, R138). -/
theorem decBuffer (h : AgreeBelow n m m') (k : Key) (len : cipherLengthOk n = true) :
    AgreeBelow n (decBuffer k n m) (decBuffer k n m') := by
  rw [cipherLengthOk_iff] at len
  have bound : n ≤ Config.bufBytes := by simp only [Config.bufBytes] at *; omega
  simp only [Machine.decBuffer]
  refine blocks _ ?_ bound (by omega)
  split
  · exact h
  · exact h.block _ bound (by omega)

theorem memBytes (h : AgreeBelow n m m') : memBytes m' 0 n = memBytes m 0 n := by
  rw [memBytes_eq_map, memBytes_eq_map]
  refine List.map_congr_left fun k below => h.same _ ?_
  rw [Nat.zero_add]
  exact List.mem_range.1 below

end AgreeBelow

end Sys2Proof.Machine

namespace Sys2Proof.Safety

open Sys2Proof.Machine

/-! ## The obligations -/

/-- Settles O17, by induction on the transactions (`run_stillHeld`). -/
theorem hostCannotChangeHeldOperands : Obligations.HostCannotChangeHeldOperands := by
  intro s es rest held events host
  obtain ⟨t, ran, kept, done⟩ := run_stillHeld held events host
  exact ⟨t, ran, ⟨kept.q, kept.buf, kept.blen, kept.crc, kept.cmdr⟩, kept.cmp, kept.busy.trans held, done⟩

/-- Settles O18: the issue takes over the data at hand, and the held command completes on it. -/
theorem issueThenCompletionIsOneFunctionCall : Obligations.IssueThenCompletionIsOneFunctionCall := by
  intro s i es rest idle len host event
  obtain ⟨u, performed⟩ := exec_next len
  obtain ⟨h, issued, taken, word, held, events⟩ := step_of_issue idle event len
  obtain ⟨v, performed', same⟩ := exec_sameData taken performed
  obtain ⟨t, ran, same', cmdr, idle', done, schedule⟩ :=
    run_completes held (word ▸ decode_encode i) performed' host events
  obtain ⟨q, buf, blen, crc, cmp⟩ := same.trans same'
  obtain ⟨-, -, -, -, -, kept, -⟩ := exec_keeps performed
  exact ⟨t, u, (run_succ issued).trans ran, performed, q, buf, crc, cmp, blen.trans kept, cmdr.trans word, idle', done,
    schedule⟩

/-- Settles O21: a target is locked or not, and a bad offset names none. -/
theorem writeLockWhileBusy : Obligations.WriteLockWhileBusy := by
  intro s off d es held event
  refine ⟨fun locked => ?_, fun unlocked => ?_, fun bad => ?_⟩
  · have ⟨t, named, locked⟩ : ∃ t, windowTarget off = some t ∧ t.writeLocked = true := by
      rcases locked with rfl | rfl | data
      · exact ⟨_, windowTarget_cmd, rfl⟩
      · exact ⟨_, windowTarget_blen, rfl⟩
      · obtain ⟨t, named, locked, -⟩ := locked_of_crc_or_dataOffset data
        exact ⟨t, named, locked⟩
    exact step_of_locked_write event named held locked
  · have ⟨t, named, unlocked⟩ : ∃ t, windowTarget off = some t ∧ t.writeLocked = false := by
      rcases unlocked with rfl | rfl | rfl
      · exact ⟨_, windowTarget_ctrl, rfl⟩
      · exact ⟨_, windowTarget_status, rfl⟩
      · exact ⟨_, windowTarget_errCmd, rfl⟩
    refine ⟨_, step_of_unlocked_write (s := { s with busy := false }) event named (.inr unlocked), ?_⟩
    have back : { State.setSchedule es { s with busy := false } with busy := true } = s.setSchedule es := by
      rw [← held]; rfl
    rw [step_of_unlocked_write event named (.inr unlocked), ← back, State.writeTarget_busy_comm unlocked]
    rfl
  · exact step_of_bad_write event ((windowTarget_eq_none_iff off).2 bad)

/-- Settles O22: every such read draws its value. -/
theorem busyReadsAnswerAnyValue : Obligations.BusyReadsAnswerAnyValue := by
  intro s off es held event data
  obtain ⟨t, named, -, unspecified⟩ := locked_of_crc_or_dataOffset data
  exact ⟨_, step_of_drawn_read event named held unspecified⟩

/-- Settles O23, by the laws of a register's window words. -/
theorem hostWriteOfAQWord : Obligations.HostWriteOfAQWord := by
  intro s r j d es hj idle event
  refine ⟨_, step_of_unlocked_write event (windowTarget_qOffset r hj) (.inl idle), ?_⟩
  have written : State.readQ (((s.setSchedule es).writeTarget (.qWord r ⟨j, hj⟩) d).respond .ok) r =
      setBigWord (s.readQ r) j d := State.readQ_writeQ_same _ r _
  rw [written]
  exact ⟨fun i hi => bigByte_setBigWord _ hj d hi, bigWord_setBigWord_same _ hj d,
    fun r' other => State.readQ_writeQ_ne _ _ other, fun _ => rfl, rfl⟩

/-- Settles O24: the word answered is the target's, and its bytes are those of the register or of BUF. -/
theorem idleDataReadsAreExact : Obligations.IdleDataReadsAreExact := by
  refine ⟨fun s es idle event => ?_, fun s r j es hj idle event => ?_, fun v j k hj hk => ?_,
    fun s w es hw idle event => ?_⟩
  · exact step_of_exact_read event windowTarget_crc (.inl idle)
  · rw [bswap32_slice _ hj]
    exact step_of_exact_read event (windowTarget_qOffset r hj) (.inl idle)
  · rw [bswap32_slice v hj]
    exact byteOf_bigWord v j hk
  · exact ⟨_, step_of_exact_read event (windowTarget_bufOffset hw) (.inl idle),
      fun k hk => byteOf_memRead32 s.buf (4 * w) hk⟩

/-- Settles O25, by the laws of a word write to BUF. -/
theorem hostWriteOfABufWord : Obligations.HostWriteOfABufWord := by
  intro s w d es hw idle wf event
  have inside : 4 * w + 3 < Config.bufBytes := by simp only [Config.bufBytes]; omega
  exact ⟨_, step_of_unlocked_write event (windowTarget_bufOffset hw) (.inl idle),
    memRead_memWrite32_range wf inside d, memRead32_memWrite32_same wf inside d, memWrite32_wf wf inside d, rfl⟩

/-- Settles O52: a command that reads BUF at all reads it below BLEN only. -/
theorem bytesFromBlenOnMatterToNoCommand : Obligations.BytesFromBlenOnMatterToNoCommand := by
  intro i s m wf wf' below t performed
  have agree : AgreeBelow s.blen.toNat s.buf m := ⟨wf, wf', below⟩
  have len := acceptable_of_exec performed
  rcases exec_reads_cases i with ⟨d, v, value⟩ | ⟨c, value⟩ | ⟨k, rfl⟩ | ⟨k, rfl⟩ | rfl | rfl
  · cases (value s).symm.trans performed
    exact ⟨_, value _, rfl, below, fun _ _ => rfl⟩
  · cases (value s).symm.trans performed
    exact ⟨_, value _, rfl, below, fun _ _ => rfl⟩
  · cases (exec_bcEnc len).symm.trans performed
    exact ⟨_, exec_bcEnc len, rfl, (agree.encBuffer _ len).same, fun a above => memRead_encBuffer_ge _ len m above⟩
  · cases (exec_bcDec len).symm.trans performed
    exact ⟨_, exec_bcDec len, rfl, (agree.decBuffer _ len).same, fun a above => memRead_decBuffer_ge _ len m above⟩
  · cases performed
    exact ⟨_, rfl, rfl, below, fun _ _ => rfl⟩
  · cases (exec_crcUpd len).symm.trans performed
    refine ⟨_, exec_crcUpd len, ?_, below, fun _ _ => rfl⟩
    simp only [State.setBuf_blen, State.setBuf_buf, State.setBuf_crc, agree.memBytes]
    rfl

/-- Settles O13: no read of the four is ever unspecified. -/
theorem controlReadsAreExact : Obligations.ControlReadsAreExact := by
  intro s es
  refine ⟨fun event => ?_, fun event => ?_, fun event => ?_, fun event => ?_⟩
  · exact ⟨ctrlWord s, step_of_exact_read event windowTarget_ctrl (.inr rfl), ctrlWord_bits s⟩
  · exact step_of_exact_read event windowTarget_cmd (.inr rfl)
  · exact step_of_exact_read event windowTarget_blen (.inr rfl)
  · exact step_of_exact_read event windowTarget_errCmd (.inr rfl)

/-- Settles O14: CTRL and ERRCMD are never locked, BLEN and CRC not while idle. -/
theorem plainControlWrites : Obligations.PlainControlWrites := by
  intro s d es
  refine ⟨fun event => ?_, fun event => ?_, fun idle event => ?_, fun idle event => ?_⟩
  · exact step_of_unlocked_write event windowTarget_ctrl (.inr rfl)
  · exact step_of_unlocked_write event windowTarget_errCmd (.inr rfl)
  · exact step_of_unlocked_write event windowTarget_blen (.inl idle)
  · exact step_of_unlocked_write event windowTarget_crc (.inl idle)

/-- Settles O19, target by target. -/
theorem windowMap : Obligations.WindowMap :=
  ⟨windowTarget_ctrl, windowTarget_status, windowTarget_cmd, windowTarget_blen, windowTarget_crc, windowTarget_errCmd,
    fun r j => windowTarget_qOffset r j.isLt, fun w => windowTarget_bufOffset w.isLt, windowTarget_eq_none_iff⟩

end Sys2Proof.Safety
end

section
/-! PROOFS. The encoding (`30_encoding.md`): a word decodes to a command exactly when its fields are the command's, and so
exactly when it is the command's encoding (R71 to R74, R78); the mask table accepts the same words (R75); the tests of an
issue attempt (R76, R77). -/

namespace Sys2Proof

open Laws.EncodedFields

/-! ## The fields of a command word (R71, R73) -/

/-- The fields of `w` are those of the command `i`: its opcode, its register fields, 0 in `Z` and in a field it does not
use. -/
structure FieldsOf (w : Word) (i : Instr) : Prop where
  op : (fieldOp w).toNat = opcode i
  rd : (fieldRd w).toNat = (regs i).1
  rs1 : (fieldRs1 w).toNat = (regs i).2.1
  rs2 : (fieldRs2 w).toNat = (regs i).2.2.1
  rm : (fieldRm w).toNat = (regs i).2.2.2
  z : (fieldZ w).toNat = 0

theorem fieldsOf_encode (i : Instr) : FieldsOf (encode i) i := by
  obtain ⟨op, rd, rs1, rs2, rm, z⟩ := encodedFields i
  exact ⟨op, rd, rs1, rs2, rm, z⟩

/-- The fields leave no bit of a word open (R71). -/
theorem FieldsOf.eq_encode {w : Word} {i : Instr} (h : FieldsOf w i) : w = encode i := by
  have e := fieldsOf_encode i
  exact word_ext_fields (h.op.trans e.op.symm) (h.rd.trans e.rd.symm) (h.rs1.trans e.rs1.symm) (h.rs2.trans e.rs2.symm)
    (h.rm.trans e.rm.symm) (h.z.trans e.z.symm)

/-- A word is the sum of its fields at their places (R71). -/
theorem word_toNat_eq_sum (w : Word) :
    w.toNat = (fieldOp w).toNat + (fieldRd w).toNat * 2 ^ 8 + (fieldRs1 w).toNat * 2 ^ 12 + (fieldRs2 w).toNat * 2 ^ 16 +
      (fieldRm w).toNat * 2 ^ 20 + (fieldZ w).toNat * 2 ^ 24 := by
  rw [fieldOp_toNat, fieldRd_toNat, fieldRs1_toNat, fieldRs2_toNat, fieldRm_toNat, fieldZ_toNat]
  have := w.isLt
  omega

/-- The sum of R74, for every command. -/
theorem encode_toNat (i : Instr) :
    (encode i).toNat =
      opcode i + (regs i).1 * 2 ^ 8 + (regs i).2.1 * 2 ^ 12 + (regs i).2.2.1 * 2 ^ 16 + (regs i).2.2.2 * 2 ^ 20 := by
  have e := fieldsOf_encode i
  rw [word_toNat_eq_sum, e.op, e.rd, e.rs1, e.rs2, e.rm, e.z, Nat.zero_mul, Nat.add_zero]

/-! ## What decoding answers (R73, R75, R77) -/

/-- Each arm of the decoder checks every field that its command has, and reads the others into the command. -/
theorem decode_fields {w : Word} {i : Instr} (h : decode w = .ok i) : FieldsOf w i := by
  unfold decode at h
  split at h
  case h_12 => cases h
  all_goals simp only [except_bind_eq_ok, mustBeZero_eq_ok, usedField_eq_ok] at h
  case h_1 op =>
    obtain ⟨-, z, -, rm, d, rd, a, rs1, b, rs2, ⟨⟩⟩ := h
    exact ⟨op, rd, rs1, rs2, rm, z⟩
  case h_2 op | h_3 op =>
    obtain ⟨-, z, -, rm, -, rs2, d, rd, a, rs1, ⟨⟩⟩ := h
    exact ⟨op, rd, rs1, rs2, rm, z⟩
  case h_4 op =>
    obtain ⟨-, z, -, rm, -, rd, a, rs1, b, rs2, ⟨⟩⟩ := h
    exact ⟨op, rd, rs1, rs2, rm, z⟩
  case h_5 op =>
    obtain ⟨-, z, -, rs2, d, rd, a, rs1, m, rm, ⟨⟩⟩ := h
    exact ⟨op, rd, rs1, rs2, rm, z⟩
  case h_6 op | h_7 op =>
    obtain ⟨-, z, d, rd, a, rs1, b, rs2, m, rm, ⟨⟩⟩ := h
    exact ⟨op, rd, rs1, rs2, rm, z⟩
  case h_8 op | h_9 op =>
    obtain ⟨-, z, -, rm, -, rs2, -, rd, k, rs1, ⟨⟩⟩ := h
    exact ⟨op, rd, rs1, rs2, rm, z⟩
  case h_10 op | h_11 op =>
    obtain ⟨-, z, -, rm, -, rs2, -, rs1, -, rd, ⟨⟩⟩ := h
    exact ⟨op, rd, rs1, rs2, rm, z⟩

/-- Decoding inverts encoding, in both directions: a word that is no command's encoding decodes to nothing (R78). -/
theorem decode_eq_ok_iff {w : Word} {i : Instr} : decode w = .ok i ↔ w = encode i :=
  ⟨fun h => (decode_fields h).eq_encode, fun h => h ▸ decode_encode i⟩

theorem FieldsOf.decode {w : Word} {i : Instr} (h : FieldsOf w i) : decode w = .ok i := decode_eq_ok_iff.2 h.eq_encode

/-- Every index below 8 names a register (R10). -/
theorem QReg.exists_index {n : Nat} (below : n < 8) : ∃ r : QReg, n = r.index := by
  have named : ∀ k : Fin 8, (QReg.ofIndex k.val).isSome = true := by decide
  obtain ⟨r, hr⟩ := Option.isSome_iff_exists.1 (named ⟨n, below⟩)
  exact ⟨r, (QReg.index_of_ofIndex hr).symm⟩

/-- A check that rejects a word, if at all, for a must-be-zero bit. -/
def RejectsByFields {α : Type} (x : Except CmdError α) : Prop := ∀ e, x = .error e → e = .reservedField

namespace RejectsByFields

theorem command (i : Instr) : RejectsByFields (pure i) := nofun

theorem unused {α : Type} {n : Nat} {f : BitVec n} {x : Except CmdError α} (rest : RejectsByFields x) :
    RejectsByFields (mustBeZero f >>= fun _ => x) := by
  intro e h
  by_cases zero : f.toNat = 0
  · rw [mustBeZero_eq_ok (u := ()) |>.2 zero] at h
    exact rest e h
  · rw [mustBeZero_error zero] at h
    cases h
    rfl

theorem used {α : Type} {f : BitVec 4} {x : QReg → Except CmdError α} (rest : ∀ r, RejectsByFields (x r)) :
    RejectsByFields (usedField f >>= x) := by
  intro e h
  by_cases below : f.toNat < 8
  · obtain ⟨r, named⟩ := QReg.exists_index below
    rw [usedField_eq_ok.2 named] at h
    exact rest r e h
  · rw [usedField_error (Nat.le_of_not_lt below)] at h
    cases h
    rfl

end RejectsByFields

open Safety in
theorem mem_definedOpcodes_iff {f : BitVec 8} :
    f ∈ definedOpcodes ↔ f.toNat ∈ [0x10, 0x11, 0x12, 0x13, 0x14, 0x20, 0x21, 0x30, 0x31, 0x40, 0x41] := by
  rw [← List.mem_map_of_injective (f := BitVec.toNat) fun _ _ => BitVec.eq_of_toNat_eq]
  rfl

open Safety in
/-- The order of the decoder's tests (R77): a word without a defined opcode is rejected for that, and another only for a
must-be-zero bit. -/
theorem decode_rejects (w : Word) :
    (fieldOp w ∉ definedOpcodes ∧ decode w = .error .illegalOpcode) ∨
      (fieldOp w ∈ definedOpcodes ∧ RejectsByFields (decode w)) := by
  rw [mem_definedOpcodes_iff]
  unfold decode
  split
  case h_12 =>
    refine .inl ⟨?_, rfl⟩
    simp only [List.mem_cons, List.not_mem_nil, or_false, not_or]
    exact ⟨‹_›, ‹_›, ‹_›, ‹_›, ‹_›, ‹_›, ‹_›, ‹_›, ‹_›, ‹_›, ‹_›⟩
  all_goals refine .inr ⟨by rw [‹(fieldOp w).toNat = _›]; decide, ?_⟩
  case h_1 => exact .unused (.unused (.used fun _ => .used fun _ => .used fun _ => .command _))
  case h_2 | h_3 => exact .unused (.unused (.unused (.used fun _ => .used fun _ => .command _)))
  case h_4 => exact .unused (.unused (.unused (.used fun _ => .used fun _ => .command _)))
  case h_5 => exact .unused (.unused (.used fun _ => .used fun _ => .used fun _ => .command _))
  case h_6 | h_7 => exact .unused (.used fun _ => .used fun _ => .used fun _ => .used fun _ => .command _)
  case h_8 | h_9 => exact .unused (.unused (.unused (.unused (.used fun _ => .command _))))
  case h_10 | h_11 => exact .unused (.unused (.unused (.unused (.unused (.command _)))))

/-! ## The mask table (R75) -/

/-- The row of the opcode table a command stands under. -/
def Instr.row : Instr → OpRow
  | .biAdd _ _ _ => opRows[0]
  | .biShl1 _ _ => opRows[1]
  | .biShr1 _ _ => opRows[2]
  | .biCmp _ _ => opRows[3]
  | .biFix _ _ _ => opRows[4]
  | .mxMulmod _ _ _ _ => opRows[5]
  | .mxModexp _ _ _ _ => opRows[6]
  | .bcEnc _ => opRows[7]
  | .bcDec _ => opRows[8]
  | .crcInit => opRows[9]
  | .crcUpd => opRows[10]

theorem Instr.row_mem (i : Instr) : i.row ∈ opRows := by
  cases i <;> exact List.getElem_mem _

theorem Instr.row_mnemonic (i : Instr) : i.row.mnemonic = i.mnemonic := by cases i <;> rfl

/-- The mnemonic names the row. -/
theorem opRows_mnemonic_injective : ∀ r ∈ opRows, ∀ q ∈ opRows, r.mnemonic = q.mnemonic → r = q := by decide

/-- A row's test of a word is its test of each field. -/
theorem OpRow.matchesWord_iff_fields {r : OpRow} {w : Word} :
    r.matchesWord w = true ↔
      fieldOp w &&& fieldOp r.mask = fieldOp r.pattern ∧ fieldRd w &&& fieldRd r.mask = fieldRd r.pattern ∧
      fieldRs1 w &&& fieldRs1 r.mask = fieldRs1 r.pattern ∧ fieldRs2 w &&& fieldRs2 r.mask = fieldRs2 r.pattern ∧
      fieldRm w &&& fieldRm r.mask = fieldRm r.pattern ∧ fieldZ w &&& fieldZ r.mask = fieldZ r.pattern := by
  have slice (a n : Nat) : w.extractLsb' a n &&& r.mask.extractLsb' a n = (w &&& r.mask).extractLsb' a n :=
    BitVec.extractLsb'_and.symm
  rw [OpRow.matchesWord, beq_iff_eq]
  simp only [fieldOp, fieldRd, fieldRs1, fieldRs2, fieldRm, fieldZ, slice]
  constructor
  · intro same
    simp only [same, and_self]
  · rintro ⟨op, rd, rs1, rs2, rm, z⟩
    exact word_ext_fields (congrArg _ op) (congrArg _ rd) (congrArg _ rs1) (congrArg _ rs2) (congrArg _ rm) (congrArg _ z)

/-- The mask of the opcode, and of `Z`, leaves no bit open. -/
theorem byteMask_iff {f c : BitVec 8} : f &&& 0xFF = c ↔ f.toNat = c.toNat := by
  rw [BitVec.toNat_inj, show f &&& 0xFF = f from BitVec.and_allOnes]

/-- The mask of an unused register field leaves no bit open. -/
theorem unusedMask_iff {f : BitVec 4} : f &&& 0xF = 0 ↔ f.toNat = 0 := by
  revert f
  decide

/-- The mask of a used register field keeps its top bit, and so leaves the eight registers. -/
theorem usedMask_iff {f : BitVec 4} : f &&& 0x8 = 0 ↔ ∃ r : QReg, f.toNat = r.index := by
  have top : f &&& 0x8 = 0 ↔ f.toNat < 8 := by
    revert f
    decide
  rw [top]
  constructor
  · exact QReg.exists_index
  · rintro ⟨r, hr⟩
    exact hr ▸ r.index_lt

/-- A command's row matches every word with the command's fields. -/
theorem FieldsOf.row_matches {w : Word} {i : Instr} (h : FieldsOf w i) : i.row.matchesWord w = true := by
  obtain ⟨op, rd, rs1, rs2, rm, z⟩ := h
  have unused {f : BitVec 4} (zero : f.toNat = 0) : f &&& 0xF = 0 := unusedMask_iff.2 zero
  have used {f : BitVec 4} {r : QReg} (named : f.toNat = r.index) : f &&& 0x8 = 0 := usedMask_iff.2 ⟨r, named⟩
  have z : fieldZ w &&& 0xFF = 0 := byteMask_iff.2 z
  rw [OpRow.matchesWord_iff_fields]
  cases i
  all_goals dsimp only [Instr.row]
  case biAdd => exact ⟨byteMask_iff.2 op, used rd, used rs1, used rs2, unused rm, z⟩
  case biShl1 | biShr1 => exact ⟨byteMask_iff.2 op, used rd, used rs1, unused rs2, unused rm, z⟩
  case biCmp => exact ⟨byteMask_iff.2 op, unused rd, used rs1, used rs2, unused rm, z⟩
  case biFix => exact ⟨byteMask_iff.2 op, used rd, used rs1, unused rs2, used rm, z⟩
  case mxMulmod | mxModexp => exact ⟨byteMask_iff.2 op, used rd, used rs1, used rs2, used rm, z⟩
  case bcEnc | bcDec => exact ⟨byteMask_iff.2 op, unused rd, used rs1, unused rs2, unused rm, z⟩
  case crcInit | crcUpd => exact ⟨byteMask_iff.2 op, unused rd, unused rs1, unused rs2, unused rm, z⟩

/-- A word that a row matches has the fields of a command of that row. -/
theorem fieldsOf_of_matchesWord {r : OpRow} (row : r ∈ opRows) {w : Word} (h : r.matchesWord w = true) :
    ∃ i, FieldsOf w i ∧ i.row = r := by
  obtain ⟨op, rd, rs1, rs2, rm, z⟩ := OpRow.matchesWord_iff_fields.1 h
  have unused {f : BitVec 4} (masked : f &&& 0xF = 0) : f.toNat = 0 := unusedMask_iff.1 masked
  have used {f : BitVec 4} (masked : f &&& 0x8 = 0) : ∃ r : QReg, f.toNat = r.index := usedMask_iff.1 masked
  have full {f c : BitVec 8} (masked : f &&& 0xFF = c) : f.toNat = c.toNat := byteMask_iff.1 masked
  simp only [opRows, List.mem_cons, List.not_mem_nil, or_false] at row
  rcases row with rfl | rfl | rfl | rfl | rfl | rfl | rfl | rfl | rfl | rfl | rfl
  · rcases used rd, used rs1, used rs2 with ⟨⟨d, rd⟩, ⟨a, rs1⟩, ⟨b, rs2⟩⟩
    exact ⟨.biAdd d a b, ⟨full op, rd, rs1, rs2, unused rm, full z⟩, rfl⟩
  · rcases used rd, used rs1 with ⟨⟨d, rd⟩, ⟨a, rs1⟩⟩
    exact ⟨.biShl1 d a, ⟨full op, rd, rs1, unused rs2, unused rm, full z⟩, rfl⟩
  · rcases used rd, used rs1 with ⟨⟨d, rd⟩, ⟨a, rs1⟩⟩
    exact ⟨.biShr1 d a, ⟨full op, rd, rs1, unused rs2, unused rm, full z⟩, rfl⟩
  · rcases used rs1, used rs2 with ⟨⟨a, rs1⟩, ⟨b, rs2⟩⟩
    exact ⟨.biCmp a b, ⟨full op, unused rd, rs1, rs2, unused rm, full z⟩, rfl⟩
  · rcases used rd, used rs1, used rm with ⟨⟨d, rd⟩, ⟨a, rs1⟩, ⟨m, rm⟩⟩
    exact ⟨.biFix d a m, ⟨full op, rd, rs1, unused rs2, rm, full z⟩, rfl⟩
  · rcases used rd, used rs1, used rs2, used rm with ⟨⟨d, rd⟩, ⟨a, rs1⟩, ⟨b, rs2⟩, ⟨m, rm⟩⟩
    exact ⟨.mxMulmod d a b m, ⟨full op, rd, rs1, rs2, rm, full z⟩, rfl⟩
  · rcases used rd, used rs1, used rs2, used rm with ⟨⟨d, rd⟩, ⟨a, rs1⟩, ⟨b, rs2⟩, ⟨m, rm⟩⟩
    exact ⟨.mxModexp d a b m, ⟨full op, rd, rs1, rs2, rm, full z⟩, rfl⟩
  · rcases used rs1 with ⟨k, rs1⟩
    exact ⟨.bcEnc k, ⟨full op, unused rd, rs1, unused rs2, unused rm, full z⟩, rfl⟩
  · rcases used rs1 with ⟨k, rs1⟩
    exact ⟨.bcDec k, ⟨full op, unused rd, rs1, unused rs2, unused rm, full z⟩, rfl⟩
  · exact ⟨.crcInit, ⟨full op, unused rd, unused rs1, unused rs2, unused rm, full z⟩, rfl⟩
  · exact ⟨.crcUpd, ⟨full op, unused rd, unused rs1, unused rs2, unused rm, full z⟩, rfl⟩

/-- A row matches exactly the words that decode to a command of its mnemonic (R75). -/
theorem matchesWord_iff_decode {r : OpRow} (row : r ∈ opRows) {w : Word} :
    r.matchesWord w = true ↔ ∃ i, decode w = .ok i ∧ i.mnemonic = r.mnemonic := by
  constructor
  · intro h
    obtain ⟨i, fields, rfl⟩ := fieldsOf_of_matchesWord row h
    exact ⟨i, fields.decode, i.row_mnemonic.symm⟩
  · rintro ⟨i, decoded, name⟩
    rw [← opRows_mnemonic_injective _ i.row_mem _ row (i.row_mnemonic.trans name)]
    exact (decode_fields decoded).row_matches

/-- The well-formed words are the words that decode (R75). -/
theorem wellFormedWord_iff_decode {w : Word} : wellFormedWord w = true ↔ ∃ i, decode w = .ok i := by
  rw [wellFormedWord, List.any_eq_true]
  constructor
  · rintro ⟨r, row, h⟩
    obtain ⟨i, decoded, -⟩ := (matchesWord_iff_decode row).1 h
    exact ⟨i, decoded⟩
  · rintro ⟨i, decoded⟩
    exact ⟨i.row, i.row_mem, (decode_fields decoded).row_matches⟩

end Sys2Proof

namespace Sys2Proof.Machine

open Sys2Proof.Safety

/-! ## The tests of an issue attempt (R76, R77) -/

/-- The length check, as numbers (R76). -/
theorem acceptable_iff {i : Instr} {blen : Word} :
    acceptable i blen = true ↔
      ((∃ k, i = .bcEnc k ∨ i = .bcDec k) → blen.toNat = 0 ∨ (8 ≤ blen.toNat ∧ blen.toNat ≤ 4096)) ∧
      (i = .crcUpd → blen.toNat ≤ 4096) := by
  cases i with
  | bcEnc | bcDec => simp [acceptable, cipherLengthOk_iff, Config.bufBytes]
  | crcUpd => simp [acceptable, crcLengthOk_iff, Config.bufBytes]
  | _ => simp [acceptable]

/-- A word with a defined opcode that is not well-formed is rejected for a must-be-zero bit (R77, R189). -/
theorem decode_reservedField {w : Word} (defined : fieldOp w ∈ definedOpcodes) (illFormed : wellFormedWord w = false) :
    decode w = .error .reservedField := by
  cases decoded : decode w with
  | ok i => simp [wellFormedWord_iff_decode.2 ⟨i, decoded⟩] at illFormed
  | error e =>
    obtain ⟨undefined, -⟩ | ⟨-, byFields⟩ := decode_rejects w
    · exact absurd defined undefined
    · rw [byFields e decoded]

end Sys2Proof.Machine

namespace Sys2Proof.Safety

open Sys2Proof.Machine

/-! ## The obligations -/

/-- Settles O1: the decoder reads every command back, and so the mask table, which accepts what decodes, accepts the word. -/
theorem everyCommandDecodesFromItsEncoding : Obligations.EveryCommandDecodesFromItsEncoding :=
  fun i => ⟨decode_encode i, wellFormedWord_iff_decode.2 ⟨i, decode_encode i⟩⟩

/-- Settles O2: a decoded word has the command's fields, and the fields cover the word. -/
theorem onlyItsEncodingDecodesToACommand : Obligations.OnlyItsEncodingDecodesToACommand :=
  fun _ _ => decode_eq_ok_iff.1

/-- Settles O3, row by row: a mask tests each field for what the decoder reads there. -/
theorem decoderAgreesWithTheMaskTable : Obligations.DecoderAgreesWithTheMaskTable :=
  ⟨fun _ _ row => matchesWord_iff_decode row, fun _ => wellFormedWord_iff_decode⟩

/-- Settles O4, test by test. -/
theorem issueTestsStopAtTheFirstFailure : Obligations.IssueTestsStopAtTheFirstFailure := by
  intro w blen
  refine ⟨fun undefined => ?_, fun defined illFormed => ?_, fun i decoded bad => ?_, fun i decoded good => ?_⟩
  · obtain ⟨-, illegal⟩ | ⟨defined, -⟩ := decode_rejects w
    · exact checkIssue_eq_error.2 (.inl illegal)
    · exact absurd defined undefined
  · exact checkIssue_eq_error.2 (.inl (decode_reservedField defined illFormed))
  · exact checkIssue_eq_error.2 (.inr ⟨rfl, i, decoded, bad⟩)
  · exact checkIssue_eq_ok.2 ⟨decoded, good⟩

/-- Settles O5: of a word that decodes, only the length is still to be tested. -/
theorem lengthCheckOfAWellFormedCommand : Obligations.LengthCheckOfAWellFormedCommand := by
  intro w blen i decoded
  have accepted : checkIssue w blen = .ok i ↔ acceptable i blen = true := by
    rw [checkIssue_eq_ok, and_iff_right decoded]
  refine ⟨accepted.trans acceptable_iff, fun rejected => ?_⟩
  rw [accepted.ne, ne_eq, Bool.not_eq_true] at rejected
  exact checkIssue_eq_error.2 (.inr ⟨rfl, i, decoded, rejected⟩)

/-- Settles O6: the sum of R74 at each command, where a field the command does not use adds 0. -/
theorem encodedWordIsTheSumOfItsFields : Obligations.EncodedWordIsTheSumOfItsFields := by
  refine ⟨fun d a b => ?_, fun d a => ?_, fun d a => ?_, fun a b => ?_, fun d a m => ?_, fun d a b m => encode_toNat _,
    fun d a b m => encode_toNat _, fun k => ?_, fun k => ?_, encode_toNat _, encode_toNat _, rfl, rfl, rfl, rfl⟩
  all_goals simp only [encode_toNat, Laws.EncodedFields.opcode, Laws.EncodedFields.regs, Nat.zero_mul, Nat.add_zero]

/-- Settles O7: each word is the encoding of its command. -/
theorem wordsWrittenFromTheFormatDecode : Obligations.WordsWrittenFromTheFormatDecode := by
  refine ⟨?_, ?_, ?_, ?_, ?_, ?_, ?_, ?_, ?_, ?_, ?_⟩ <;> exact decode_eq_ok_iff.2 rfl

end Sys2Proof.Safety
end

section
/-! PROOFS. The integer unit (`40_bigint128_alu.md`): its five functions as numbers and bit by bit (R91 to R94), the frame
of a command that writes one register (R101), and the order of two registers read from their bytes (R93). -/

namespace Sys2Proof.Machine

open Sys2Proof.Safety

/-! ## The functions of the unit (R92 to R94); the sum, shifts and `Fix` as numbers are in the laws of the step lists -/

/-- Every bit moves one place toward the most significant end (R92). -/
theorem shl1_getLsbD_succ (a : Big) {i : Nat} (below : i < 127) : (shl1 a).getLsbD (i + 1) = a.getLsbD i := by
  have kept : i + 1 < 128 := by omega
  have moved : ¬ i + 1 < 1 := by omega
  simp only [shl1, BitVec.getLsbD_shiftLeft, kept, moved, decide_true, decide_false, Bool.not_false, Bool.true_and,
    Nat.add_sub_cancel]

/-- A zero enters at the least significant end (R92). -/
theorem shl1_getLsbD_zero (a : Big) : (shl1 a).getLsbD 0 = false := by simp [shl1]

/-- Every bit moves one place toward the least significant end (R92). -/
theorem shr1_getLsbD (a : Big) (i : Nat) : (shr1 a).getLsbD i = a.getLsbD (i + 1) := by
  rw [shr1, BitVec.getLsbD_ushiftRight, Nat.add_comm]

/-- A zero enters at the most significant end (R92): it is bit 128 of the operand, which does not exist. -/
theorem shr1_getLsbD_last (a : Big) : (shr1 a).getLsbD 127 = false := by
  rw [shr1_getLsbD, BitVec.getLsbD_of_ge a 128 (Nat.le_refl 128)]

/-- The code of a comparison, by the order of the integers (R93, R98). -/
theorem cmpCode_toNat (a b : Big) :
    cmpCode a b = if a.toNat = b.toNat then 0b00 else if b.toNat < a.toNat then 0b01 else 0b10 := by
  simp only [cmpCode, BitVec.toNat_inj, BitVec.lt_def]

/-- A value that is not above the modulus is left as it is, the modulus itself included (R94). -/
theorem fix_of_le {a m : Big} (le : a.toNat ≤ m.toNat) : fix a m = a :=
  BitVec.eq_of_toNat_eq (by rw [fix_toNat, if_neg (by omega)])

/-- A value above the modulus loses it once (R94). -/
theorem fix_toNat_of_gt {a m : Big} (gt : m.toNat < a.toNat) : (fix a m).toNat = a.toNat - m.toNat := by
  rw [fix_toNat, if_pos gt]

/-- With modulus 0 nothing changes: a value above it loses 0 (R94). -/
theorem fix_of_modulus_zero {a m : Big} (zero : m.toNat = 0) : fix a m = a := by
  refine BitVec.eq_of_toNat_eq ?_
  rw [fix_toNat, zero, Nat.sub_zero, ite_self]

/-! ## The commands (R95 to R99) -/

/-- `Q[d] <- v` writes one register and changes nothing else (R12, R101). -/
theorem onlyQ_writeQ (s : State) (d : QReg) (v : Big) : OnlyQ d s (s.writeQ d v) := by
  obtain ⟨-, others, frame⟩ := State.writeQ_spec s d v
  exact ⟨others, fun _ => rfl, frame⟩

/-- BI_ADD completes (R95). -/
theorem exec_biAdd (d a b : QReg) (s : State) :
    exec (.biAdd d a b) s = .next (s.writeQ d (add128 (s.readQ a) (s.readQ b))) := rfl

/-- BI_SHL1 completes (R96). -/
theorem exec_biShl1 (d a : QReg) (s : State) : exec (.biShl1 d a) s = .next (s.writeQ d (shl1 (s.readQ a))) := rfl

/-- BI_SHR1 completes (R97). -/
theorem exec_biShr1 (d a : QReg) (s : State) : exec (.biShr1 d a) s = .next (s.writeQ d (shr1 (s.readQ a))) := rfl

/-- BI_CMP completes (R98). -/
theorem exec_biCmp (a b : QReg) (s : State) :
    exec (.biCmp a b) s = .next (s.setCmp (cmpCode (s.readQ a) (s.readQ b))) := rfl

/-- BI_FIX completes (R99). -/
theorem exec_biFix (d a m : QReg) (s : State) :
    exec (.biFix d a m) s = .next (s.writeQ d (fix (s.readQ a) (s.readQ m))) := rfl

/-! ## The order of two integers, byte by byte (R6, R93) -/

/-- A byte of a register, as a number: byte 0 is the most significant (R6). -/
theorem bigByte_toNat (v : Big) (i : Nat) : (bigByte v i).toNat = v.toNat / 2 ^ (8 * (15 - i)) % 256 := by
  rw [bigByte, BitVec.extractLsb'_toNat, Nat.shiftRight_eq_div_pow]

/-- The number that the first `n` of the 16 big-endian bytes form. -/
def leadingBytes (v : Big) (n : Nat) : Nat := v.toNat / 2 ^ (8 * (16 - n))

theorem leadingBytes_zero (v : Big) : leadingBytes v 0 = 0 := Nat.div_eq_of_lt v.isLt

theorem leadingBytes_all (v : Big) : leadingBytes v 16 = v.toNat := Nat.div_one _

/-- One more byte is one more digit in base 256. -/
theorem leadingBytes_succ (v : Big) {n : Nat} (inside : n < 16) :
    leadingBytes v (n + 1) = 256 * leadingBytes v n + (bigByte v n).toNat := by
  have rest : 16 - (n + 1) = 15 - n := by omega
  have place : 8 * (16 - n) = 8 * (15 - n) + 8 := by omega
  rw [bigByte_toNat, leadingBytes, leadingBytes, rest, place, Nat.pow_add, ← Nat.div_div_eq_div_mul]
  exact (Nat.div_add_mod _ 256).symm

/-- The leading bytes form the same number exactly when they are the same bytes. -/
theorem leadingBytes_eq_iff (a b : Big) {n : Nat} (inside : n ≤ 16) :
    leadingBytes a n = leadingBytes b n ↔ ∀ j, j < n → bigByte a j = bigByte b j := by
  induction n with
  | zero => simp [leadingBytes_zero]
  | succ n ih =>
    have digitA := (bigByte a n).isLt
    have digitB := (bigByte b n).isLt
    calc leadingBytes a (n + 1) = leadingBytes b (n + 1)
        ↔ leadingBytes a n = leadingBytes b n ∧ (bigByte a n).toNat = (bigByte b n).toNat := by
          rw [leadingBytes_succ a inside, leadingBytes_succ b inside]
          omega
      _ ↔ (∀ j, j < n → bigByte a j = bigByte b j) ∧ bigByte a n = bigByte b n := by
          rw [ih (Nat.le_of_succ_le inside), BitVec.toNat_inj]
      _ ↔ ∀ j, j < n + 1 → bigByte a j = bigByte b j := Nat.forall_lt_succ_right.symm

/-- The leading bytes of one integer form the smaller number exactly when the first byte that differs is smaller. -/
theorem leadingBytes_lt_iff (a b : Big) {n : Nat} (inside : n ≤ 16) :
    leadingBytes a n < leadingBytes b n ↔
      ∃ i, i < n ∧ (∀ j, j < i → bigByte a j = bigByte b j) ∧ (bigByte a i).toNat < (bigByte b i).toNat := by
  induction n with
  | zero => simp [leadingBytes_zero]
  | succ n ih =>
    have digitA := (bigByte a n).isLt
    have digitB := (bigByte b n).isLt
    have before : n ≤ 16 := Nat.le_of_succ_le inside
    rw [Nat.exists_lt_succ_right, ← ih before, ← leadingBytes_eq_iff a b before, leadingBytes_succ a inside,
      leadingBytes_succ b inside]
    omega

end Sys2Proof.Machine

namespace Sys2Proof.Safety

open Sys2Proof.Machine

/-! ## The obligations -/

/-- Settles O35, by the two shifts as numbers and bit by bit. -/
theorem shiftsByOne : Obligations.ShiftsByOne := by
  refine ⟨fun d a s => ⟨_, exec_biShl1 d a s, ?_⟩, fun d a s => ⟨_, exec_biShr1 d a s, ?_⟩⟩
  · rw [State.readQ_writeQ_same]
    exact ⟨shl1_toNat _, fun _ below => shl1_getLsbD_succ _ below, shl1_getLsbD_zero _, onlyQ_writeQ s d _⟩
  · rw [State.readQ_writeQ_same]
    exact ⟨shr1_toNat _, fun i _ => shr1_getLsbD _ i, shr1_getLsbD_last _, onlyQ_writeQ s d _⟩

/-- Settles O37: all 16 bytes are the leading bytes, and they form the integer. -/
theorem orderIsLexicographicOnBytes : Obligations.OrderIsLexicographicOnBytes := by
  intro a b
  rw [← leadingBytes_all a, ← leadingBytes_all b]
  exact leadingBytes_lt_iff a b (Nat.le_refl 16)

/-- Settles O38, by the cases of `Fix`; above twice the modulus one subtraction leaves a value above it. -/
theorem biFixSubtractsOnceIfStrictlyAbove : Obligations.BiFixSubtractsOnceIfStrictlyAbove := by
  intro d a m s
  refine ⟨_, exec_biFix d a m s, ?_⟩
  rw [State.readQ_writeQ_same]
  refine ⟨fix_toNat_of_gt, fix_of_le, fix_of_modulus_zero, fun farAbove => ?_, onlyQ_writeQ s d _⟩
  rw [fix_toNat_of_gt (by omega)]
  omega

/-- Settles O34, by the sum as a number. -/
theorem biAddWritesTheTruncatedSum : Obligations.BiAddWritesTheTruncatedSum := by
  intro d a b s
  refine ⟨_, exec_biAdd d a b s, ?_, onlyQ_writeQ s d _⟩
  rw [State.readQ_writeQ_same, add128_toNat]

/-- Settles O36: the three orders of two integers exclude each other, and BI_CMP writes no field but `CMP`. -/
theorem biCmpWritesTheUnsignedOrder : Obligations.BiCmpWritesTheUnsignedOrder := by
  intro a b s
  refine ⟨_, exec_biCmp a b s, fun equal => ?_, fun greater => ?_, fun less => ?_, rfl, fun _ => rfl, fun _ => rfl⟩
  · rw [State.setCmp_cmp, cmpCode_toNat, if_pos equal]
  · rw [State.setCmp_cmp, cmpCode_toNat, if_neg (by omega), if_pos greater]
  · rw [State.setCmp_cmp, cmpCode_toNat, if_neg (by omega), if_neg (by omega)]

end Sys2Proof.Safety
end

section
/-! PROOFS. The modular engine (`41_modexp_engine.md`): what one iteration of each step list does (R110, R111), the one
induction behind the product and power laws of R114 to R116, and the scans that end in a fixed value (R113). -/

namespace Sys2Proof.Machine

open Sys2Proof.Safety

/-! ## One iteration of `MulMod` (R110) -/

theorem mulMod_eq (a b m : Big) : mulMod a b m = (mulLoop m 128 ⟨a, b, 0⟩).acc := rfl

/-- After `k` shifts the scanned bit is bit `k` of the multiplier. -/
theorem mulLoop_t1_getLsbD (m : Big) (x : MulRegs) (k i : Nat) :
    (mulLoop m k x).t1.getLsbD i = x.t1.getLsbD (k + i) := by
  induction k generalizing i with
  | zero => rw [mulLoop, Nat.zero_add]
  | succ k ih => rw [mulLoop_succ, mulStep, shr1_getLsbD, ih, Nat.add_right_comm, Nat.add_assoc]

theorem mulLoop_acc_succ (m : Big) (x : MulRegs) (k : Nat) :
    (mulLoop m (k + 1) x).acc =
      if x.t1.getLsbD k then fix (add128 (mulLoop m k x).acc (mulLoop m k x).t2) m else (mulLoop m k x).acc := by
  rw [mulLoop_succ, mulStep, mulLoop_t1_getLsbD, Nat.add_zero]

theorem mulLoop_t2_succ (m : Big) (x : MulRegs) (k : Nat) :
    (mulLoop m (k + 1) x).t2 = fix (shl1 (mulLoop m k x).t2) m := by
  rw [mulLoop_succ, mulStep]

/-! ## One iteration of `ModExp` (R111) -/

theorem modExp_eq (g e m : Big) : modExp g e m = (expLoop m 128 ⟨g, e, 1⟩).out := rfl

/-- After `k` shifts the scanned bit is bit `k` of the exponent. -/
theorem expLoop_e_getLsbD (m : Big) (x : ExpRegs) (k i : Nat) :
    (expLoop m k x).e.getLsbD i = x.e.getLsbD (k + i) := by
  induction k generalizing i with
  | zero => rw [expLoop, Nat.zero_add]
  | succ k ih => rw [expLoop_succ, expStep, shr1_getLsbD, ih, Nat.add_right_comm, Nat.add_assoc]

theorem expLoop_out_succ (m : Big) (x : ExpRegs) (k : Nat) :
    (expLoop m (k + 1) x).out =
      if x.e.getLsbD k then mulMod (expLoop m k x).out (expLoop m k x).g m else (expLoop m k x).out := by
  rw [expLoop_succ, expStep, expLoop_e_getLsbD, Nat.add_zero]

theorem expLoop_g_succ (m : Big) (x : ExpRegs) (k : Nat) :
    (expLoop m (k + 1) x).g = mulMod (expLoop m k x).g (expLoop m k x).g m := by
  rw [expLoop_succ, expStep]

/-! ## The moduli for which the engine's addition is an addition (R114 to R116) -/

/-- The engine's addition with modulus `m`, a sum and one `Fix`, is the addition modulo `n` of the integers up to `bound`
and stays among them. -/
def AddsModulo (m : Big) (n bound : Nat) : Prop :=
  ∀ x y : Big, x.toNat ≤ bound → y.toNat ≤ bound →
    (fix (add128 x y) m).toNat ≤ bound ∧ (fix (add128 x y) m).toNat ≡ x.toNat + y.toNat [MOD n]

/-- Below `2^127` a sum of two values up to the modulus is not truncated, and one `Fix` brings it back (R114). -/
theorem addsModulo_of_lt {m : Big} (small : m.toNat < 2 ^ 127) : AddsModulo m m.toNat m.toNat := by
  intro x y hx hy
  have sum : (add128 x y).toNat = x.toNat + y.toNat := by
    rw [add128_toNat, Nat.mod_eq_of_lt (by omega)]
  rcases Nat.lt_or_ge m.toNat (x.toNat + y.toNat) with above | le
  · rw [fix_toNat_of_gt (sum ▸ above), sum]
    exact ⟨by omega, (Nat.mod_eq_sub_mod above.le).symm⟩
  · rw [fix_of_le (sum ▸ le), sum]
    exact ⟨le, rfl⟩

/-- With modulus 0 only the truncation to 128 bits is left (R116). -/
theorem addsModulo_zero : AddsModulo 0 (2 ^ 128) (2 ^ 128 - 1) := by
  intro x y _ _
  rw [fix_of_modulus_zero rfl, add128_toNat]
  exact ⟨by omega, Nat.mod_modEq _ _⟩

/-- Doubling is the addition of a value to itself. -/
theorem shl1_eq_add128 (a : Big) : shl1 a = add128 a a :=
  BitVec.eq_of_toNat_eq (by rw [shl1_toNat, add128_toNat, Nat.two_mul])

/-- Scanning bit `k` of an operand adds its place value to the part scanned so far. -/
theorem toNat_mod_two_pow_succ (a : Big) (k : Nat) :
    a.toNat % 2 ^ (k + 1) = if a.getLsbD k then a.toNat % 2 ^ k + 2 ^ k else a.toNat % 2 ^ k := by
  rw [Nat.mod_pow_succ, BitVec.getLsbD, Nat.testBit_eq_decide_div_mod_eq]
  rcases Nat.mod_two_eq_zero_or_one (a.toNat / 2 ^ k) with bit | bit <;> simp [bit]

/-- The working copies of `MulMod` for the part `s` of the multiplier scanned so far, whose next bit has place value `p`. -/
structure MulScanned (n bound : Nat) (b : Big) (s p : Nat) (x : MulRegs) : Prop where
  acc_le : x.acc.toNat ≤ bound
  t2_le : x.t2.toNat ≤ bound
  acc_modEq : x.acc.toNat ≡ s * b.toNat [MOD n]
  t2_modEq : x.t2.toNat ≡ p * b.toNat [MOD n]

section
variable {m : Big} {n bound : Nat} (adds : AddsModulo m n bound)
include adds

/-- The scan of the multiplier (R110): the accumulator is the product with the part scanned so far. -/
theorem mulLoop_scanned (a : Big) {b : Big} (le : b.toNat ≤ bound) (k : Nat) :
    MulScanned n bound b (a.toNat % 2 ^ k) (2 ^ k) (mulLoop m k ⟨a, b, 0⟩) := by
  induction k with
  | zero =>
    rw [Nat.pow_zero, Nat.mod_one]
    exact ⟨Nat.zero_le _, le, by rw [Nat.zero_mul]; rfl, by rw [Nat.one_mul]; rfl⟩
  | succ k ih =>
    obtain ⟨acc_le, t2_le, acc_modEq, t2_modEq⟩ := ih
    obtain ⟨doubled_le, doubled⟩ := adds _ _ t2_le t2_le
    obtain ⟨added_le, added⟩ := adds _ _ acc_le t2_le
    rw [← shl1_eq_add128, ← mulLoop_t2_succ] at doubled_le doubled
    have place : (mulLoop m (k + 1) ⟨a, b, 0⟩).t2.toNat ≡ 2 ^ (k + 1) * b.toNat [MOD n] := by
      rw [Nat.pow_succ, Nat.mul_two, Nat.add_mul]
      exact doubled.trans (t2_modEq.add t2_modEq)
    refine ⟨?_, doubled_le, ?_, place⟩ <;> rw [mulLoop_acc_succ]
    · split
      · exact added_le
      · exact acc_le
    · rw [toNat_mod_two_pow_succ]
      split
      · rw [Nat.add_mul]
        exact added.trans (acc_modEq.add t2_modEq)
      · exact acc_modEq

/-- `MulMod` is the product modulo `n`, whatever the multiplier. -/
theorem mulMod_spec (a : Big) {b : Big} (le : b.toNat ≤ bound) :
    (mulMod a b m).toNat ≤ bound ∧ (mulMod a b m).toNat ≡ a.toNat * b.toNat [MOD n] := by
  have scanned := mulLoop_scanned adds a le 128
  rw [BitVec.toNat_mod_cancel] at scanned
  exact ⟨scanned.acc_le, scanned.acc_modEq⟩

end

/-- The working copies of `ModExp` for the part `s` of the exponent scanned so far, whose next bit has place value `p`. -/
structure ExpScanned (n bound : Nat) (g : Big) (s p : Nat) (x : ExpRegs) : Prop where
  out_le : x.out.toNat ≤ bound
  g_le : x.g.toNat ≤ bound
  out_modEq : x.out.toNat ≡ g.toNat ^ s [MOD n]
  g_modEq : x.g.toNat ≡ g.toNat ^ p [MOD n]

section
variable {m : Big} {n bound : Nat} (adds : AddsModulo m n bound) (pos : 1 ≤ bound)
include adds pos

/-- The scan of the exponent (R111): the result is the power by the part scanned so far. -/
theorem expLoop_scanned (e : Big) {g : Big} (le : g.toNat ≤ bound) (k : Nat) :
    ExpScanned n bound g (e.toNat % 2 ^ k) (2 ^ k) (expLoop m k ⟨g, e, 1⟩) := by
  induction k with
  | zero =>
    rw [Nat.pow_zero, Nat.mod_one]
    exact ⟨pos, le, by rw [Nat.pow_zero]; rfl, by rw [Nat.pow_one]; rfl⟩
  | succ k ih =>
    obtain ⟨out_le, g_le, out_modEq, g_modEq⟩ := ih
    obtain ⟨squared_le, squared⟩ := mulMod_spec adds (expLoop m k ⟨g, e, 1⟩).g g_le
    obtain ⟨multiplied_le, multiplied⟩ := mulMod_spec adds (expLoop m k ⟨g, e, 1⟩).out g_le
    rw [← expLoop_g_succ] at squared_le squared
    have place : (expLoop m (k + 1) ⟨g, e, 1⟩).g.toNat ≡ g.toNat ^ 2 ^ (k + 1) [MOD n] := by
      rw [Nat.pow_succ, Nat.mul_two, Nat.pow_add]
      exact squared.trans (g_modEq.mul g_modEq)
    refine ⟨?_, squared_le, ?_, place⟩ <;> rw [expLoop_out_succ]
    · split
      · exact multiplied_le
      · exact out_le
    · rw [toNat_mod_two_pow_succ]
      split
      · rw [Nat.pow_add]
        exact multiplied.trans (out_modEq.mul g_modEq)
      · exact out_modEq

/-- `ModExp` is the power modulo `n`, whatever the exponent. -/
theorem modExp_spec (e : Big) {g : Big} (le : g.toNat ≤ bound) :
    (modExp g e m).toNat ≤ bound ∧ (modExp g e m).toNat ≡ g.toNat ^ e.toNat [MOD n] := by
  have scanned := expLoop_scanned adds pos e le 128
  rw [BitVec.toNat_mod_cancel] at scanned
  exact ⟨scanned.out_le, scanned.out_modEq⟩

end

/-- With modulus 0 the product (R116). -/
theorem mulMod_modulus_zero (a b : Big) : (mulMod a b 0).toNat = a.toNat * b.toNat % 2 ^ 128 := by
  obtain ⟨-, product⟩ := mulMod_spec addsModulo_zero a (Nat.le_pred_of_lt b.isLt)
  rw [← product, BitVec.toNat_mod_cancel]

/-- With modulus 0 the power (R116). -/
theorem modExp_modulus_zero (g e : Big) : (modExp g e 0).toNat = g.toNat ^ e.toNat % 2 ^ 128 := by
  obtain ⟨-, power⟩ := modExp_spec addsModulo_zero (by decide) e (Nat.le_pred_of_lt g.isLt)
  rw [← power, BitVec.toNat_mod_cancel]

/-! ## Values up to the modulus, and the least residue (R114, R115) -/

/-- A value up to the modulus that the modulus does not divide lies strictly between 0 and the modulus. -/
theorem canonical_of_not_dvd {r v m : Nat} (le : r ≤ m) (modEq : r ≡ v [MOD m]) (not_dvd : ¬ m ∣ v) :
    1 ≤ r ∧ r ≤ m - 1 := by
  rw [← modEq.dvd_iff (dvd_refl m)] at not_dvd
  have not_zero : r ≠ 0 := fun eq => not_dvd (eq ▸ dvd_zero m)
  have not_modulus : r ≠ m := fun eq => not_dvd (eq ▸ dvd_refl m)
  omega

/-- The modulus divides no value up to it but 0 and itself. -/
theorem eq_zero_or_modulus_of_dvd {r m : Nat} (le : r ≤ m) (dvd : m ∣ r) : r = 0 ∨ r = m :=
  (Nat.eq_zero_or_pos r).imp_right fun pos => Nat.le_antisymm le (Nat.le_of_dvd pos dvd)

/-- No power of a base strictly between 0 and a prime is divided by it. -/
theorem prime_not_dvd_pow {p g : Nat} (prime : p.Prime) (pos : 1 ≤ g) (lt : g ≤ p - 1) (e : Nat) : ¬ p ∣ g ^ e :=
  fun dvd => Nat.not_dvd_of_pos_of_lt pos (by omega) (prime.dvd_of_dvd_pow dvd)

/-! ## Scans that end in a fixed value (R113) -/

/-- A register that changes only where the scanned operand has a 1, and there takes one value `w` from its first value
and from `w`, ends in `w` unless the operand is 0. -/
theorem scan_cases {a : Big} {u : Nat → Big} {w : Big} (keep : ∀ k, a.getLsbD k = false → u (k + 1) = u k)
    (hit : ∀ k, a.getLsbD k = true → u k = u 0 ∨ u k = w → u (k + 1) = w) : (a = 0 ∧ u 128 = u 0) ∨ u 128 = w := by
  have scanned (k : Nat) : ((∀ j, j < k → a.getLsbD j = false) ∧ u k = u 0) ∨ u k = w := by
    induction k with
    | zero => exact .inl ⟨fun _ h => absurd h (Nat.not_lt_zero _), rfl⟩
    | succ k ih =>
      cases bit : a.getLsbD k
      · rw [keep k bit, Nat.forall_lt_succ_right]
        exact ih.imp_left fun ⟨zeros, first⟩ => ⟨⟨zeros, bit⟩, first⟩
      · exact .inr (hit k bit (ih.imp_left And.right))
  refine (scanned 128).imp_left fun ⟨zeros, first⟩ => ⟨BitVec.eq_of_getLsbD_eq fun j below => ?_, first⟩
  rw [zeros j below]
  simp

/-- The accumulator of `MulMod` as such a register: it starts at 0. -/
theorem mulMod_cases {a b m w : Big}
    (hit : ∀ k, a.getLsbD k = true → (mulLoop m k ⟨a, b, 0⟩).acc = 0 ∨ (mulLoop m k ⟨a, b, 0⟩).acc = w →
      fix (add128 (mulLoop m k ⟨a, b, 0⟩).acc (mulLoop m k ⟨a, b, 0⟩).t2) m = w) :
    (a = 0 ∧ mulMod a b m = 0) ∨ mulMod a b m = w := by
  refine scan_cases (u := fun k => (mulLoop m k ⟨a, b, 0⟩).acc) (fun k bit => ?_) fun k bit prior => ?_
  · rw [mulLoop_acc_succ, if_neg (by simp [bit])]
  · rw [mulLoop_acc_succ, if_pos bit]
    exact hit k bit prior

/-- The result of `ModExp` as such a register: it starts at 1. -/
theorem modExp_cases {g e m w : Big}
    (hit : ∀ k, e.getLsbD k = true → (expLoop m k ⟨g, e, 1⟩).out = 1 ∨ (expLoop m k ⟨g, e, 1⟩).out = w →
      mulMod (expLoop m k ⟨g, e, 1⟩).out (expLoop m k ⟨g, e, 1⟩).g m = w) :
    (e = 0 ∧ modExp g e m = 1) ∨ modExp g e m = w := by
  refine scan_cases (u := fun k => (expLoop m k ⟨g, e, 1⟩).out) (fun k bit => ?_) fun k bit prior => ?_
  · rw [expLoop_out_succ, if_neg (by simp [bit])]
  · rw [expLoop_out_succ, if_pos bit]
    exact hit k bit prior

/-- The number 1 has its one bit at place 0. -/
theorem getLsbD_one_eq_true {k : Nat} (bit : (1 : Big).getLsbD k = true) : k = 0 := by
  simpa using bit

/-- A running base that its square leaves as it is stays as it is. -/
theorem expLoop_g_of_square {g e m : Big} (square : mulMod g g m = g) (k : Nat) :
    (expLoop m k ⟨g, e, 1⟩).g = g := by
  induction k with
  | zero => rfl
  | succ k ih => rw [expLoop_g_succ, ih, square]

/-- An addend that doubling leaves as it is stays as it is. -/
theorem mulLoop_t2_of_double {a b m : Big} (double : fix (shl1 b) m = b) (k : Nat) :
    (mulLoop m k ⟨a, b, 0⟩).t2 = b := by
  induction k with
  | zero => rfl
  | succ k ih => rw [mulLoop_t2_succ, ih, double]

theorem add128_zero_left (a : Big) : add128 0 a = a := BitVec.zero_add a

theorem mulMod_zero_right (a m : Big) : mulMod a 0 m = 0 := by
  have fixed : fix (shl1 0) m = 0 := fix_of_le (Nat.zero_le _)
  refine (mulMod_cases fun k _ prior => ?_).elim And.right id
  rw [mulLoop_t2_of_double fixed, prior.elim id id, ← shl1_eq_add128, fixed]

theorem mulMod_one_left (b m : Big) : mulMod 1 b m = fix b m := by
  refine (mulMod_cases fun k bit _ => ?_).elim (fun ⟨zero, _⟩ => absurd zero (by decide)) id
  obtain rfl := getLsbD_one_eq_true bit
  exact congrArg (fix · m) (add128_zero_left b)

/-- An addend equal to the modulus makes every nonzero product the modulus, which `Fix` does not subtract from itself
(R113). -/
theorem mulMod_modulus_right {a m : Big} (nonzero : a ≠ 0) (small : m.toNat < 2 ^ 127) : mulMod a m m = m := by
  have first : fix (add128 0 m) m = m := by rw [add128_zero_left, fix_of_le (Nat.le_refl _)]
  have double : fix (shl1 m) m = m := by
    refine BitVec.eq_of_toNat_eq ?_
    rw [fix_toNat, shl1_toNat, Nat.mod_eq_of_lt (by omega)]
    split <;> omega
  refine (mulMod_cases fun k _ prior => ?_).elim (fun ⟨zero, _⟩ => absurd zero nonzero) id
  rw [mulLoop_t2_of_double double]
  rcases prior with zero | modulus
  · rw [zero, first]
  · rw [modulus, ← shl1_eq_add128, double]

/-! ## The commands (R112, R113) -/

/-- MX_MULMOD completes (R112). -/
theorem exec_mxMulmod (d a b m : QReg) (s : State) :
    exec (.mxMulmod d a b m) s = .next (s.writeQ d (mulMod (s.readQ a) (s.readQ b) (s.readQ m))) := rfl

/-- MX_MODEXP completes (R113). -/
theorem exec_mxModexp (d g e m : QReg) (s : State) :
    exec (.mxModexp d g e m) s = .next (s.writeQ d (modExp (s.readQ g) (s.readQ e) (s.readQ m))) := rfl

end Sys2Proof.Machine

namespace Sys2Proof.Safety

open Sys2Proof.Machine

/-- `Fix` of an integer is `Fix` of its number (R94). -/
theorem fix_toNat_eq_fixNat (x m : Big) : (fix x m).toNat = fixNat x.toNat m.toNat := fix_toNat x m

/-! ## The obligations -/

/-- Settles O40, by induction on the iterations: each sequence is the working copy it stands for. -/
theorem stepListsOfTheModularFunctions : Obligations.StepListsOfTheModularFunctions := by
  refine ⟨fun a b m acc t2 acc_zero t2_zero acc_succ t2_succ => ?_,
    fun g e m out base out_zero base_zero out_succ base_succ => ?_⟩
  · have copies (k : Nat) :
        (mulLoop m k ⟨a, b, 0⟩).acc.toNat = acc k ∧ (mulLoop m k ⟨a, b, 0⟩).t2.toNat = t2 k := by
      induction k with
      | zero => exact ⟨acc_zero.symm, t2_zero.symm⟩
      | succ k ih =>
        obtain ⟨acc_eq, t2_eq⟩ := ih
        rw [mulLoop_acc_succ, mulLoop_t2_succ, acc_succ, t2_succ, apply_ite BitVec.toNat, fix_toNat_eq_fixNat,
          fix_toNat_eq_fixNat, add128_toNat, shl1_toNat, acc_eq, t2_eq]
        exact ⟨rfl, rfl⟩
    exact (copies 128).1
  · have copies (k : Nat) : (expLoop m k ⟨g, e, 1⟩).out = out k ∧ (expLoop m k ⟨g, e, 1⟩).g = base k := by
      induction k with
      | zero => exact ⟨out_zero.symm, base_zero.symm⟩
      | succ k ih =>
        obtain ⟨out_eq, base_eq⟩ := ih
        rw [expLoop_out_succ, expLoop_g_succ, out_succ, base_succ, out_eq, base_eq]
        exact ⟨rfl, rfl⟩
    exact (copies 128).1

/-- Settles O41, by the scan of the multiplier with the modulus as the bound. -/
theorem mulModIsTheProductWithinBounds : Obligations.MulModIsTheProductWithinBounds := by
  intro a b m pos small le
  have adds := addsModulo_of_lt small
  obtain ⟨bounded, product⟩ := mulMod_spec adds a le
  refine ⟨bounded, product, fun nonzero => ?_, fun zero => ?_, fun k _ => ?_⟩
  · obtain ⟨-, below⟩ := canonical_of_not_dvd bounded product (mt Nat.mod_eq_zero_of_dvd nonzero)
    rw [← product, Nat.mod_eq_of_lt (by omega)]
  · have dvd : m.toNat ∣ (mulMod a b m).toNat := Nat.dvd_of_mod_eq_zero (Eq.trans product zero)
    exact (eq_zero_or_modulus_of_dvd bounded dvd).imp BitVec.eq_of_toNat_eq BitVec.eq_of_toNat_eq
  · obtain ⟨acc_le, t2_le, -, -⟩ := mulLoop_scanned adds a le k
    omega

/-- Settles O42, by the scan of the exponent with the modulus as the bound; a prime modulus divides no power of the base,
so every running value is its own least residue. -/
theorem modExpIsThePowerWithinBounds : Obligations.ModExpIsThePowerWithinBounds := by
  intro g e m pos small le
  have scanned := expLoop_scanned (addsModulo_of_lt small) pos e le
  obtain ⟨bounded, power⟩ := modExp_spec (addsModulo_of_lt small) pos e le
  refine ⟨bounded, power, fun k _ => ⟨(scanned k).out_le, (scanned k).g_le⟩, fun prime g_pos g_lt => ?_⟩
  have not_dvd := prime_not_dvd_pow prime g_pos g_lt
  obtain ⟨one_le, below⟩ := canonical_of_not_dvd bounded power (not_dvd _)
  refine ⟨?_, one_le, below, fun k _ => ?_⟩
  · rw [← power, Nat.mod_eq_of_lt (by omega)]
  · obtain ⟨out_le, g_le, out_modEq, g_modEq⟩ := scanned k
    exact and_assoc.1 ⟨canonical_of_not_dvd out_le out_modEq (not_dvd _), canonical_of_not_dvd g_le g_modEq (not_dvd _)⟩

/-- Settles O43, by the same scans with the truncation to 128 bits as the only reduction. -/
theorem zeroModulusIsPlainArithmetic : Obligations.ZeroModulusIsPlainArithmetic := by
  refine ⟨mulMod_modulus_zero, modExp_modulus_zero, fun _ => fix_of_modulus_zero rfl, fun d a b m s zero => ⟨?_, ?_⟩⟩
  · refine ⟨_, exec_mxMulmod d a b m s, ?_⟩
    rw [State.readQ_writeQ_same, zero, mulMod_modulus_zero]
  · refine ⟨_, exec_mxModexp d a b m s, ?_⟩
    rw [State.readQ_writeQ_same, zero, modExp_modulus_zero]

/-- Settles O44, by the scan of the exponent: it has no 1, or a single 1 at place 0, or its first 1 brings the value that
every later one keeps. -/
theorem modExpCornerCases : Obligations.ModExpCornerCases := by
  refine ⟨fun g m => ?_, fun g m => ?_, fun e m nonzero => ?_, fun e m nonzero pos small => ?_⟩
  · refine (modExp_cases fun k bit _ => ?_).elim And.right id
    simp at bit
  · refine (modExp_cases fun k bit _ => ?_).elim (fun ⟨zero, _⟩ => absurd zero (by decide)) id
    obtain rfl := getLsbD_one_eq_true bit
    exact mulMod_one_left g m
  · refine (modExp_cases fun k _ _ => ?_).elim (fun ⟨zero, _⟩ => absurd zero nonzero) id
    rw [expLoop_g_of_square (mulMod_zero_right 0 m), mulMod_zero_right]
  · have modulus_ne : m ≠ 0 := fun zero => absurd pos (by simp [zero])
    refine (modExp_cases fun k _ prior => ?_).elim (fun ⟨zero, _⟩ => absurd zero nonzero) id
    rw [expLoop_g_of_square (mulMod_modulus_right modulus_ne small)]
    refine mulMod_modulus_right ?_ small
    rcases prior with one | modulus
    · rw [one]; decide
    · rw [modulus]; exact modulus_ne

/-- Settles O39, by the write of the one register. -/
theorem modularCommandsWriteOnlyTheirDestination : Obligations.ModularCommandsWriteOnlyTheirDestination :=
  ⟨fun d a b m s => ⟨_, exec_mxMulmod d a b m s, State.readQ_writeQ_same .., onlyQ_writeQ s d _⟩,
    fun d g e m s => ⟨_, exec_mxModexp d g e m s, State.readQ_writeQ_same .., onlyQ_writeQ s d _⟩⟩

end Sys2Proof.Safety
end

section
/-! PROOFS. The block cipher (`42_block_cipher_core.md`): the two rounds undo each other, and so do the block functions
(R131 to R134); what the whole blocks and the tail block each do to BUF (R135 to R138); the round trip of a buffer (R139). -/

namespace Sys2Proof.Machine

open Sys2Proof.Safety

/-! ## The rounds (R131 to R133) -/

theorem encBlock_eq (k : Key) (y z : Word) :
    encBlock k y z =
      ((cipherLoop (encRound k) 32 ⟨y, z, 0⟩).y, (cipherLoop (encRound k) 32 ⟨y, z, 0⟩).z) := rfl

theorem decBlock_eq (k : Key) (y z : Word) :
    decBlock k y z =
      ((cipherLoop (decRound k) 32 ⟨y, z, dsum0⟩).y, (cipherLoop (decRound k) 32 ⟨y, z, dsum0⟩).z) := rfl

/-- `DecBlock` takes back `z` first, with the `y` and the sum it was made from. -/
theorem decRound_encRound (k : Key) (x : Round) : decRound k (encRound k x) = x := by
  simp only [decRound, encRound, BitVec.add_sub_cancel]

theorem encRound_decRound (k : Key) (x : Round) : encRound k (decRound k x) = x := by
  simp only [decRound, encRound, BitVec.sub_add_cancel]

theorem cipherLoop_eq_iterate (f : Round → Round) (n : Nat) (x : Round) : cipherLoop f n x = f^[n] x := by
  induction n generalizing x with
  | zero => rfl
  | succ n ih => exact ih (f x)

/-- Rounds that undo each other do so any number of times. -/
theorem cipherLoop_leftInverse {f g : Round → Round} (undo : ∀ x, g (f x) = x) (n : Nat) (x : Round) :
    cipherLoop g n (cipherLoop f n x) = x := by
  rw [cipherLoop_eq_iterate, cipherLoop_eq_iterate]
  exact Function.LeftInverse.iterate undo n x

theorem cipherLoop_encRound_sum (k : Key) (n : Nat) (x : Round) :
    (cipherLoop (encRound k) n x).sum = x.sum + BitVec.ofNat 32 n * delta := by
  induction n with
  | zero => simp [cipherLoop]
  | succ n ih => rw [cipherLoop_succ, encRound, ih, BitVec.ofNat_add, BitVec.add_mul, BitVec.one_mul, BitVec.add_assoc]

/-- `EncBlock` ends in the sum that `DecBlock` starts from (R4). -/
theorem cipherLoop_encRound_eq (k : Key) (y z : Word) :
    cipherLoop (encRound k) 32 ⟨y, z, 0⟩ = ⟨(encBlock k y z).1, (encBlock k y z).2, dsum0⟩ := by
  have sum := cipherLoop_encRound_sum k 32 ⟨y, z, 0⟩
  rw [show (0 : Word) + BitVec.ofNat 32 32 * delta = dsum0 by decide] at sum
  rw [encBlock_eq, ← sum]

/-- `DecBlock` ends in the sum that `EncBlock` starts from: the rounds of `EncBlock` bring it back to `dsum0`. -/
theorem cipherLoop_decRound_eq (k : Key) (y z : Word) :
    cipherLoop (decRound k) 32 ⟨y, z, dsum0⟩ = ⟨(decBlock k y z).1, (decBlock k y z).2, 0⟩ := by
  have sum := cipherLoop_encRound_sum k 32 (cipherLoop (decRound k) 32 ⟨y, z, dsum0⟩)
  rw [cipherLoop_leftInverse (encRound_decRound k), show BitVec.ofNat 32 32 * delta = dsum0 by decide] at sum
  have zero : (cipherLoop (decRound k) 32 ⟨y, z, dsum0⟩).sum = 0 := add_eq_right.1 sum.symm
  rw [decBlock_eq, ← zero]

/-! ## Block functions that undo each other (R134) -/

/-- The block function `g` undoes `f`. -/
def Undoes (g f : Word → Word → Word × Word) : Prop := ∀ y z, g (f y z).1 (f y z).2 = (y, z)

theorem decBlock_undoes_encBlock (k : Key) : Undoes (decBlock k) (encBlock k) := by
  intro y z
  rw [decBlock_eq, ← cipherLoop_encRound_eq, cipherLoop_leftInverse (decRound_encRound k)]

theorem encBlock_undoes_decBlock (k : Key) : Undoes (encBlock k) (decBlock k) := by
  intro y z
  rw [encBlock_eq, ← cipherLoop_decRound_eq, cipherLoop_leftInverse (encRound_decRound k)]

/-! ## A block in BUF (R135) -/

section
variable {f g : Word → Word → Word × Word} {m m' : Memory}

/-- What is said of a block depends on its eight bytes alone. -/
theorem blockIs_congr {o : Nat} {n n' : Memory} (block : BlockIs f o m m')
    (before : ∀ a, o ≤ a → a < o + 8 → memRead n a = memRead m a)
    (after : ∀ a, o ≤ a → a < o + 8 → memRead n' a = memRead m' a) : BlockIs f o n n' := by
  have words {p p' : Memory} (same : ∀ a, o ≤ a → a < o + 8 → memRead p a = memRead p' a) :
      memRead32 p o = memRead32 p' o ∧ memRead32 p (o + 4) = memRead32 p' (o + 4) :=
    ⟨memRead32_congr fun _ _ => same _ (by omega) (by omega), memRead32_congr fun _ _ => same _ (by omega) (by omega)⟩
  obtain ⟨y, z⟩ := words before
  obtain ⟨y', z'⟩ := words after
  rwa [BlockIs, y, z, y', z']

/-- A block done and undone holds the bytes it held. -/
theorem memRead_of_blockIs_undone (undoes : Undoes g f) {o : Nat} {m'' : Memory} (done : BlockIs f o m m')
    (undone : BlockIs g o m' m'') {a : Nat} (above : o ≤ a) (below : a < o + 8) : memRead m'' a = memRead m a := by
  have words : (memRead32 m'' o, memRead32 m'' (o + 4)) = (memRead32 m o, memRead32 m (o + 4)) := by
    rw [undone, ← undoes (memRead32 m o) (memRead32 m (o + 4)), ← done]
  obtain ⟨y, z⟩ := Prod.mk.inj words
  obtain ⟨k, rfl⟩ := Nat.exists_eq_add_of_le above
  rcases Nat.lt_or_ge k 4 with low | high
  · rw [← byteOf_memRead32 m'' o low, y, byteOf_memRead32 m o low]
  · obtain ⟨j, rfl⟩ := Nat.exists_eq_add_of_le high
    have inWord : j < 4 := by omega
    rw [← Nat.add_assoc, ← byteOf_memRead32 m'' (o + 4) inWord, z, byteOf_memRead32 m (o + 4) inWord]

theorem blockAt_undone (undoes : Undoes g f) (wf : m.wf = true) {o : Nat} (inside : o + 8 ≤ Config.bufBytes) :
    blockAt g o (blockAt f o m) = m := by
  have wf' := blockAt_wf f wf inside
  refine memory_ext (blockAt_wf g wf' inside) wf fun a => ?_
  by_cases block : o ≤ a ∧ a < o + 8
  · exact memRead_of_blockIs_undone undoes (blockAt_words f wf inside) (blockAt_words g wf' inside) block.1 block.2
  · rw [memRead_blockAt_ne g _ (by omega), memRead_blockAt_ne f _ (by omega)]

/-! ## The whole blocks (R137) -/

/-- Each whole block is done once: no other block touches it. -/
theorem blockIs_wholeBlocks (wf : m.wf = true) {n : Nat} (inside : 8 * n ≤ Config.bufBytes) {i : Nat} (block : i < n) :
    BlockIs f (8 * i) m (wholeBlocks f n m) := by
  induction n with
  | zero => omega
  | succ n ih =>
    rcases Nat.lt_succ_iff_lt_or_eq.1 block with earlier | rfl
    · exact blockIs_congr (ih (by omega) earlier) (fun _ _ _ => rfl) fun a _ _ => memRead_blockAt_ne f _ (by omega)
    · have last : BlockIs f (8 * i) (wholeBlocks f i m) (wholeBlocks f (i + 1) m) :=
        blockAt_words f (wholeBlocks_wf f wf (by omega)) (by omega)
      exact blockIs_congr last (fun a above _ => (memRead_wholeBlocks_ge f m above).symm) fun _ _ _ => rfl

theorem wholeBlocks_undone (undoes : Undoes g f) (wf : m.wf = true) {n : Nat} (inside : 8 * n ≤ Config.bufBytes) :
    wholeBlocks g n (wholeBlocks f n m) = m := by
  have wf' := wholeBlocks_wf f wf inside
  refine memory_ext (wholeBlocks_wf g wf' inside) wf fun a => ?_
  rcases Nat.lt_or_ge a (8 * n) with below | above
  · have block : a / 8 < n := by omega
    exact memRead_of_blockIs_undone undoes (blockIs_wholeBlocks wf inside block) (blockIs_wholeBlocks wf' inside block)
      (by omega) (by omega)
  · rw [memRead_wholeBlocks_ge g _ above, memRead_wholeBlocks_ge f m above]

/-! ## The tail block (R137, R138) -/

/-- The block at `len - 8`, done only if the length is no multiple of 8: the second half of `encBuffer`, the first of
`decBuffer`. -/
def tailBlock (f : Word → Word → Word × Word) (len : Nat) (m : Memory) : Memory :=
  if len % 8 = 0 then m else blockAt f (len - 8) m

theorem encBuffer_eq (k : Key) (len : Nat) (m : Memory) :
    encBuffer k len m = tailBlock (encBlock k) len (wholeBlocks (encBlock k) (len / 8) m) := rfl

theorem decBuffer_eq (k : Key) (len : Nat) (m : Memory) :
    decBuffer k len m = wholeBlocks (decBlock k) (len / 8) (tailBlock (decBlock k) len m) := rfl

theorem tailBlock_of_multiple {len : Nat} (multiple : len % 8 = 0) : tailBlock f len m = m := if_pos multiple

theorem tailBlock_of_not_multiple {len : Nat} (rest : len % 8 ≠ 0) : tailBlock f len m = blockAt f (len - 8) m :=
  if_neg rest

/-- The tail block of an accepted length lies in BUF (R76). -/
theorem tailBlock_inside {len : Nat} (ok : cipherLengthOk len = true) (rest : len % 8 ≠ 0) :
    8 ≤ len ∧ len - 8 + 8 ≤ Config.bufBytes := by
  rw [cipherLengthOk_iff] at ok
  omega

/-- The whole blocks of an accepted length lie in BUF (R76). -/
theorem wholeBlocks_inside {len : Nat} (ok : cipherLengthOk len = true) : 8 * (len / 8) ≤ Config.bufBytes := by
  rw [cipherLengthOk_iff] at ok
  omega

variable {len : Nat}

theorem tailBlock_wf (ok : cipherLengthOk len = true) (wf : m.wf = true) : (tailBlock f len m).wf = true := by
  rw [tailBlock]
  split
  case isTrue => exact wf
  case isFalse rest => exact blockAt_wf f wf (tailBlock_inside ok rest).2

theorem blockIs_tailBlock (ok : cipherLengthOk len = true) (wf : m.wf = true) (rest : len % 8 ≠ 0) :
    BlockIs f (len - 8) m (tailBlock f len m) := by
  rw [tailBlock_of_not_multiple rest]
  exact blockAt_words f wf (tailBlock_inside ok rest).2

theorem memRead_tailBlock_ne (ok : cipherLengthOk len = true) {a : Nat} (outside : a < len - 8 ∨ len ≤ a) :
    memRead (tailBlock f len m) a = memRead m a := by
  rw [tailBlock]
  split
  case isTrue => rfl
  case isFalse rest =>
    have ⟨tail, _⟩ := tailBlock_inside ok rest
    exact memRead_blockAt_ne f m (by omega)

theorem tailBlock_undone (undoes : Undoes g f) (ok : cipherLengthOk len = true) (wf : m.wf = true) :
    tailBlock g len (tailBlock f len m) = m := by
  by_cases multiple : len % 8 = 0
  · rw [tailBlock_of_multiple multiple, tailBlock_of_multiple multiple]
  · rw [tailBlock_of_not_multiple multiple, tailBlock_of_not_multiple multiple]
    exact blockAt_undone undoes wf (tailBlock_inside ok multiple).2

/-! ## The round trip of a buffer (R139) -/

/-- The tail block, done last, is undone first. -/
theorem decBuffer_encBuffer (k : Key) (ok : cipherLengthOk len = true) (wf : m.wf = true) :
    decBuffer k len (encBuffer k len m) = m := by
  have inside := wholeBlocks_inside ok
  rw [decBuffer_eq, encBuffer_eq, tailBlock_undone (decBlock_undoes_encBlock k) ok (wholeBlocks_wf _ wf inside),
    wholeBlocks_undone (decBlock_undoes_encBlock k) wf inside]

theorem encBuffer_decBuffer (k : Key) (ok : cipherLengthOk len = true) (wf : m.wf = true) :
    encBuffer k len (decBuffer k len m) = m := by
  rw [encBuffer_eq, decBuffer_eq,
    wholeBlocks_undone (encBlock_undoes_decBlock k) (tailBlock_wf ok wf) (wholeBlocks_inside ok),
    tailBlock_undone (encBlock_undoes_decBlock k) ok wf]

end

/-! ## The commands (R136 to R138) -/

/-- BC_ENC over other bytes of BUF: the key and the length are still the state's. -/
theorem exec_bcEnc_setBuf {k : QReg} {s : State} (m : Memory) (ok : cipherLengthOk s.blen.toNat = true) :
    exec (.bcEnc k) (s.setBuf m) = .next (s.setBuf (encBuffer (keyWords (s.readQ k)) s.blen.toNat m)) :=
  exec_bcEnc (s := s.setBuf m) ok

/-- BC_DEC over other bytes of BUF: the key and the length are still the state's. -/
theorem exec_bcDec_setBuf {k : QReg} {s : State} (m : Memory) (ok : cipherLengthOk s.blen.toNat = true) :
    exec (.bcDec k) (s.setBuf m) = .next (s.setBuf (decBuffer (keyWords (s.readQ k)) s.blen.toNat m)) :=
  exec_bcDec (s := s.setBuf m) ok

/-- A command that replaces the bytes of BUF below BLEN writes nothing else (R136). -/
theorem onlyBufBelowBlen_setBuf {s : State} {m : Memory}
    (kept : ∀ a, s.blen.toNat ≤ a → memRead m a = memRead s.buf a) : OnlyBufBelowBlen s (s.setBuf m) :=
  ⟨kept, fun _ => rfl, rfl⟩

end Sys2Proof.Machine

namespace Sys2Proof.Safety

open Sys2Proof.Machine

/-! ## The obligations -/

/-- Settles O45: each round is undone, and each block function ends in the sum that the other starts from. -/
theorem blockFunctionsAreInverse : Obligations.BlockFunctionsAreInverse :=
  fun k y z => ⟨decBlock_undoes_encBlock k y z, encBlock_undoes_decBlock k y z⟩

/-- Settles O46, by induction on the rounds: each sequence is the working copy it stands for. -/
theorem blockFunctionsFollowTheRoundLists : Obligations.BlockFunctionsFollowTheRoundLists := by
  refine ⟨fun k sum y z sum_zero sum_succ y_succ z_succ => ?_, fun k sum y z sum_zero sum_succ z_succ y_succ => ?_,
    by decide⟩
  · have copies (i : Nat) : cipherLoop (encRound k) i ⟨y 0, z 0, 0⟩ = ⟨y i, z i, sum i⟩ := by
      induction i with
      | zero => rw [cipherLoop, sum_zero]
      | succ i ih => rw [cipherLoop_succ, ih, z_succ, y_succ, sum_succ]; rfl
    rw [encBlock_eq, copies]
  · have copies (i : Nat) : cipherLoop (decRound k) i ⟨y 0, z 0, dsum0⟩ = ⟨y i, z i, sum i⟩ := by
      induction i with
      | zero => rw [cipherLoop, sum_zero]; rfl
      | succ i ih => rw [cipherLoop_succ, ih, y_succ, z_succ, sum_succ]; rfl
    rw [decBlock_eq, copies]

/-- Settles O47: the key words are the register's window words, whose bytes are the register's. -/
theorem keyWordsOfARegister : Obligations.KeyWordsOfARegister :=
  ⟨fun v _ inWord => ⟨(byteOf_bigWord v 0 inWord).trans (by rw [Nat.mul_zero, Nat.zero_add]), byteOf_bigWord v 1 inWord,
    byteOf_bigWord v 2 inWord, byteOf_bigWord v 3 inWord⟩, by decide, by decide⟩

/-- Settles O48, with the memory after the whole blocks. -/
theorem bcEncEncryptsBlocksThenTail : Obligations.BcEncEncryptsBlocksThenTail := by
  intro k s wf len
  have ok : cipherLengthOk s.blen.toNat = true := (cipherLengthOk_iff _).2 len
  have inside := wholeBlocks_inside ok
  refine ⟨_, wholeBlocks (encBlock (keyWords (s.readQ k))) (s.blen.toNat / 8) s.buf, exec_bcEnc ok,
    onlyBufBelowBlen_setBuf fun a above => memRead_encBuffer_ge _ ok _ above,
    fun i block => blockIs_wholeBlocks wf inside block, fun a above => memRead_wholeBlocks_ge _ _ above,
    fun multiple a => ?_, fun rest => ?_⟩ <;>
    rw [State.setBuf_buf, encBuffer_eq]
  · rw [tailBlock_of_multiple multiple]
  · exact ⟨blockIs_tailBlock ok (wholeBlocks_wf _ wf inside) rest, fun a outside => memRead_tailBlock_ne ok outside⟩

/-- Settles O49, with the memory after the tail block. -/
theorem bcDecDecryptsTailThenBlocks : Obligations.BcDecDecryptsTailThenBlocks := by
  intro k s wf len
  have ok : cipherLengthOk s.blen.toNat = true := (cipherLengthOk_iff _).2 len
  refine ⟨_, tailBlock (decBlock (keyWords (s.readQ k))) s.blen.toNat s.buf, exec_bcDec ok,
    onlyBufBelowBlen_setBuf fun a above => memRead_decBuffer_ge _ ok _ above, fun multiple a => ?_,
    fun rest => ⟨blockIs_tailBlock ok wf rest, fun a outside => memRead_tailBlock_ne ok outside⟩, fun i block => ?_,
    fun a above => ?_⟩
  · rw [tailBlock_of_multiple multiple]
  · rw [State.setBuf_buf, decBuffer_eq]
    exact blockIs_wholeBlocks (tailBlock_wf ok wf) (wholeBlocks_inside ok) block
  · rw [State.setBuf_buf, decBuffer_eq]
    exact memRead_wholeBlocks_ge _ _ above

/-- Settles O50: a cipher command changes neither key nor length, so the second undoes the first. -/
theorem cipherRoundTrip : Obligations.CipherRoundTrip := by
  intro k s wf len
  have ok : cipherLengthOk s.blen.toNat = true := (cipherLengthOk_iff _).2 len
  refine ⟨⟨_, exec_bcEnc ok, ?_⟩, ⟨_, exec_bcDec ok, ?_⟩⟩
  · rw [exec_bcDec_setBuf _ ok, decBuffer_encBuffer _ ok wf]
    rfl
  · rw [exec_bcEnc_setBuf _ ok, encBuffer_decBuffer _ ok wf]
    rfl

end Sys2Proof.Safety
end

section
/-! PROOFS. The CRC generator (`43_crc32_generator.md`): the bit steps as an iterate, linear over XOR, and a plain shift
where no 1 leaves the register; from these the table-driven form (R150) and what a register's own bytes leave in it; and
`CrcUpdate` as a fold over the bytes (R151, R153). -/

namespace Sys2Proof.Machine

/-! ## The bit steps (R150) -/

/-- A bit step as one XOR: the bit shifted out decides whether the polynomial enters. -/
theorem crcStep_eq_xor (c : Word) : crcStep c = c >>> 1 ^^^ bif c.getLsbD 0 then poly else 0#32 := by
  rw [crcStep]
  cases c.getLsbD 0 with
  | false => rw [if_neg Bool.false_ne_true, cond_false, BitVec.xor_zero]
  | true => rw [if_pos rfl, cond_true]

/-- A bit step is linear over XOR. -/
theorem crcStep_xor (c d : Word) : crcStep (c ^^^ d) = crcStep c ^^^ crcStep d := by
  have term (p q : Bool) : (bif p ^^ q then poly else 0#32) = (bif p then poly else 0) ^^^ bif q then poly else 0 := by
    revert p q
    decide
  simp only [crcStep_eq_xor, BitVec.getLsbD_xor, BitVec.ushiftRight_xor_distrib, term]
  ac_rfl

theorem crcStep_of_even {c : Word} (even : c.getLsbD 0 = false) : crcStep c = c >>> 1 := by
  rw [crcStep, if_neg (ne_true_of_eq_false even)]

theorem crcSteps_eq_iterate (n : Nat) (c : Word) : crcSteps n c = crcStep^[n] c := by
  induction n generalizing c with
  | zero => rfl
  | succ n ih => exact ih (crcStep c)

/-- The last bit step of several. -/
theorem crcSteps_succ (n : Nat) (c : Word) : crcSteps (n + 1) c = crcStep (crcSteps n c) := by
  rw [crcSteps_eq_iterate, crcSteps_eq_iterate, Function.iterate_succ_apply']

theorem crcSteps_xor (n : Nat) (c d : Word) : crcSteps n (c ^^^ d) = crcSteps n c ^^^ crcSteps n d := by
  induction n generalizing c d with
  | zero => rfl
  | succ n ih => rw [crcSteps, crcStep_xor, ih, crcSteps, crcSteps]

/-- While only zeros leave the register, the bit steps are a shift. -/
theorem crcSteps_of_low_zero {n : Nat} {c : Word} (zeros : ∀ i < n, c.getLsbD i = false) : crcSteps n c = c >>> n := by
  induction n with
  | zero => simp [crcSteps]
  | succ n ih =>
    have even : (c >>> n).getLsbD 0 = false := by simpa using zeros n (by omega)
    rw [crcSteps_succ, ih fun i hi => zeros i (by omega), crcStep_of_even even, BitVec.shiftRight_add]

/-! ## One byte (R150) -/

theorem crcByte_zero (c : Word) : crcByte c 0 = crcSteps 8 c := by
  simp [crcByte]

/-- The bits of a word's low byte. -/
theorem getLsbD_lowByte (c : Word) (i : Nat) : (c &&& 0xFF).getLsbD i = (decide (i < 8) && c.getLsbD i) := by
  have mask : (0xFF : Word).getLsbD i = decide (i < 8) := by
    rw [show (0xFF : Word) = BitVec.ofNat 32 (2 ^ 8 - 1) by decide, BitVec.getLsbD_ofNat, Nat.testBit_two_pow_sub_one,
      ← Bool.decide_and, decide_eq_decide]
    omega
  rw [BitVec.getLsbD_and, mask, Bool.and_comm]

/-- A word without its low byte. -/
theorem getLsbD_xor_lowByte (c : Word) (i : Nat) :
    (c ^^^ (c &&& 0xFF)).getLsbD i = (decide (8 ≤ i) && c.getLsbD i) := by
  rw [BitVec.getLsbD_xor, getLsbD_lowByte]
  by_cases low : i < 8
  · simp [low]
  · simp [low, Nat.le_of_not_lt low]

theorem setWidth_byteOf_zero (c : Word) : (byteOf c 0).setWidth 32 = c &&& 0xFF := by
  refine BitVec.eq_of_getLsbD_eq fun i inWord => ?_
  rw [getLsbD_lowByte, BitVec.getLsbD_setWidth, getLsbD_byteOf]
  simp only [inWord, decide_true, Bool.true_and, Nat.mul_zero, Nat.zero_add]

/-- Eight bit steps: the low byte goes through the steps (the table's entry), the upper bytes are shifted down. -/
theorem crcSteps_eight_eq_table (c : Word) : crcSteps 8 c = crcByte (c &&& 0xFF) 0 ^^^ c >>> 8 := by
  have split : c = (c &&& 0xFF) ^^^ (c ^^^ (c &&& 0xFF)) := by
    rw [BitVec.xor_comm c, ← BitVec.xor_assoc, BitVec.xor_self, BitVec.zero_xor]
  have upper : crcSteps 8 (c ^^^ (c &&& 0xFF)) = c >>> 8 := by
    have zeros (i : Nat) (low : i < 8) : (c ^^^ (c &&& 0xFF)).getLsbD i = false := by
      rw [getLsbD_xor_lowByte, decide_eq_false (Nat.not_le_of_lt low), Bool.false_and]
    rw [crcSteps_of_low_zero zeros]
    refine BitVec.eq_of_getLsbD_eq fun i _ => ?_
    rw [BitVec.getLsbD_ushiftRight, getLsbD_xor_lowByte, BitVec.getLsbD_ushiftRight]
    simp only [Nat.le_add_right, decide_true, Bool.true_and]
  rw [crcByte_zero, ← upper, ← crcSteps_xor, ← split]

/-- The byte enters below the bits that the table-driven form shifts down. -/
theorem crcByte_eq_table (c : Word) (x : Byte) :
    crcByte c x = crcByte ((c ^^^ x.setWidth 32) &&& 0xFF) 0 ^^^ c >>> 8 := by
  have gone : x.setWidth 32 >>> 8 = 0#32 := by
    refine BitVec.eq_of_getLsbD_eq fun i _ => ?_
    simp
  rw [crcByte, crcSteps_eight_eq_table, BitVec.ushiftRight_xor_distrib, gone, BitVec.xor_zero]

/-- The byte of a word is the low byte of the word shifted down. -/
theorem byteOf_ushiftRight (c : Word) (k : Nat) : byteOf (c >>> (8 * k)) 0 = byteOf c k := by
  refine BitVec.eq_of_getLsbD_eq fun i _ => ?_
  simp [getLsbD_byteOf]

/-- The register's own low byte cancels: what is left is a shift. -/
theorem crcByte_byteOf_zero (c : Word) : crcByte c (byteOf c 0) = c >>> 8 := by
  have cancels : (c ^^^ (c &&& 0xFF)) &&& 0xFF = 0#32 := by
    refine BitVec.eq_of_getLsbD_eq fun i _ => ?_
    rw [getLsbD_lowByte, getLsbD_xor_lowByte]
    by_cases low : i < 8 <;> simp [low]
  rw [crcByte_eq_table, setWidth_byteOf_zero, cancels, show crcByte 0#32 0 = 0#32 by decide, BitVec.zero_xor]

/-! ## A byte sequence (R151) -/

theorem crcUpdate_eq_foldl (c : Word) (xs : List Byte) : crcUpdate c xs = xs.foldl crcByte c := by
  induction xs generalizing c with
  | nil => rfl
  | cons x xs ih => exact ih (crcByte c x)

theorem crcUpdate_append (c : Word) (xs ys : List Byte) : crcUpdate c (xs ++ ys) = crcUpdate (crcUpdate c xs) ys := by
  simp only [crcUpdate_eq_foldl, List.foldl_append]

/-- A register's own bytes, least significant first, shift it out. -/
theorem crcUpdate_ownBytes (c : Word) (n : Nat) : crcUpdate c ((List.range n).map (byteOf c)) = c >>> (8 * n) := by
  induction n with
  | zero => simp [crcUpdate]
  | succ n ih =>
    rw [List.range_succ, List.map_append, crcUpdate_append, ih]
    calc crcUpdate (c >>> (8 * n)) [byteOf c n]
        = crcByte (c >>> (8 * n)) (byteOf (c >>> (8 * n)) 0) := by rw [byteOf_ushiftRight]; rfl
      _ = c >>> (8 * (n + 1)) := by rw [crcByte_byteOf_zero, ← BitVec.shiftRight_add, Nat.mul_succ]

end Sys2Proof.Machine

namespace Sys2Proof.Safety

open Sys2Proof.Machine

/-! ## The obligations -/

/-- Settles O53: CRC is the one field written. -/
theorem crcInitLoadsAllOnes : Obligations.CrcInitLoadsAllOnes :=
  fun _ => ⟨_, rfl, rfl, fun _ => rfl, fun _ => rfl⟩

/-- Settles O54: the bytes of BUF by index, and `CrcUpdate` as their fold. -/
theorem crcUpdFoldsTheBuffer : Obligations.CrcUpdFoldsTheBuffer := by
  intro s len
  refine ⟨_, exec_crcUpd ((crcLengthOk_iff _).2 len), ?_, rfl, fun _ => rfl, fun _ => rfl⟩
  rw [State.setCrc_crc, crcUpdate_eq_foldl, memBytes_eq_map]
  simp only [Nat.zero_add]

/-- Settles O55: the two defining equations, and a fold over an append. -/
theorem crcInPieces : Obligations.CrcInPieces :=
  ⟨fun _ => rfl, fun _ _ _ => rfl, crcUpdate_append⟩

/-- Settles O56: each value computed, the nine digits as the two pieces that R155 also names. -/
theorem crcCheckValues : Obligations.CrcCheckValues := by
  have first : crcUpdate 0xFFFFFFFF [0x31, 0x32, 0x33, 0x34] = 0x641C1F5C := by
    simp [crcUpdate, crcByte, crcSteps, crcStep, poly]
  have rest : crcUpdate 0x641C1F5C [0x35, 0x36, 0x37, 0x38, 0x39] = 0x340BC6D9 := by
    simp [crcUpdate, crcByte, crcSteps, crcStep, poly]
  have zeros : crcUpdate 0xFFFFFFFF [0x00, 0x00, 0x00, 0x00] = 0xDEBB20E3 := by
    simp [crcUpdate, crcByte, crcSteps, crcStep, poly]
  have digits := crcUpdate_append 0xFFFFFFFF [0x31, 0x32, 0x33, 0x34] [0x35, 0x36, 0x37, 0x38, 0x39]
  rw [first, rest] at digits
  exact ⟨rfl, digits, by decide, by decide, by decide, zeros, first, rest⟩

/-- Settles O57: such a sequence is the bit steps, by induction on their number. -/
theorem crcByteIsEightBitStepsAndTableDriven : Obligations.CrcByteIsEightBitStepsAndTableDriven := by
  refine ⟨fun c x v start next => ?_, crcByte_eq_table⟩
  have steps (n : Nat) : crcSteps n (v 0) = v n := by
    induction n with
    | zero => rfl
    | succ n ih => rw [crcSteps_succ, ih, next]; rfl
  rw [crcByte, ← start, steps]

/-- Settles O58: the four bytes shift the register out. -/
theorem crcOverItsOwnRegisterIsZero : Obligations.CrcOverItsOwnRegisterIsZero := by
  intro c xs
  rw [crcUpdate_append]
  calc crcUpdate (crcUpdate c xs) ((List.range 4).map (byteOf (crcUpdate c xs)))
      = crcUpdate c xs >>> 32 := crcUpdate_ownBytes _ 4
    _ = 0 := BitVec.ushiftRight_eq_zero (Nat.le_refl 32)

end Sys2Proof.Safety
end

section
/-! PROOFS. The life of a command (`44_system_command_lifecycle.md`): issue and its three outcomes (R166), the engine's
turn and completion (R168 to R170), STATUS read and written (R171, R172), the interrupt line (R173), and progress (R169).
The first parts say what each operation of this life does; each obligation is then a short use. -/

namespace Sys2Proof.Machine

open Sys2Proof.Safety

/-! ## Issue, as equations (R166) -/

/-- A word that its tests reject, written to CMD while idle. -/
theorem State.issue_of_rejected {s : State} {w : Word} {e : CmdError} (idle : s.busy = false)
    (rejected : checkIssue w s.blen = .error e) : s.issue w = s.reject e w := by
  simp only [State.issue, idle, rejected]
  rfl

/-- A word that its tests accept, written to CMD while idle. -/
theorem State.issue_of_accepted {s : State} {w : Word} {i : Instr} (idle : s.busy = false)
    (accepted : checkIssue w s.blen = .ok i) : s.issue w = s.accept w := by
  simp only [State.issue, idle, accepted]
  rfl

/-! ## The engine's turn, as equations (R168, R170, R176) -/

theorem setSchedule_of_schedule_eq {s : State} {es : List Event} (events : s.schedule = es) : s.setSchedule es = s :=
  events ▸ rfl

/-- The idle engine has no enabled step (R176). -/
theorem engineTurn_of_idle {s : State} (idle : s.busy = false) : engineTurn s = .next s :=
  if_neg (by simp [idle])

/-- The engine that holds a command performs it and finishes (R168, R170). -/
theorem engineTurn_of_held {s : State} {i : Instr} (held : s.busy = true) (isCmd : decode s.cmdr = .ok i) :
    engineTurn s = finishOutcome (exec i s) := by
  rw [engineTurn, if_pos held, isCmd]

/-- A held command that its length check accepts completes (R168). -/
theorem engineTurn_completes {s : State} {i : Instr} (held : s.busy = true) (isCmd : decode s.cmdr = .ok i)
    (len : acceptable i s.blen = true) : ∃ u, exec i s = .next u ∧ engineTurn s = .next u.finish := by
  obtain ⟨u, performed⟩ := exec_next len
  exact ⟨u, performed, by rw [engineTurn_of_held held isCmd, performed, finishOutcome]⟩

/-- The engine has the turn when it is next in the schedule, and when nothing is (log entry 1). -/
theorem step_eq_engineTurn {s : State} {rest : List Event} (turn : s.schedule = [] ∨ s.schedule = .engine :: rest) :
    step s = engineTurn (s.setSchedule s.schedule.tail) := by
  obtain event | event := turn
  · rw [event, List.tail_nil, setSchedule_of_schedule_eq event]
    simp only [step, event]
  · simp only [step, event, List.tail_cons]

/-- The block with nothing scheduled and no command held is quiescent (R176). -/
theorem step_quiescent {s : State} (idle : s.busy = false) (none : s.schedule = []) : step s = .next s := by
  simp only [step, none, engineTurn_of_idle idle]

/-- A placed word is held as by an accepted issue, and the engine has the next turn (log entry 9). -/
theorem withFetchWord_word (s : State) (w : Word) :
    s.withFetchWord 32 w.toNat = (s.accept w).setSchedule (.engine :: s.schedule) := by
  rw [State.withFetchWord, Nat.mod_eq_of_lt w.isLt, BitVec.ofNat_toNat, BitVec.setWidth_eq]

/-! ## STATUS as a word (R18, R172) -/

/-- Every bit of STATUS: the flags, then `CMP` from bit 4 and ERRCODE from bit 8. -/
theorem statusWord_getLsbD (s : State) {n : Nat} (inWord : n < 32) :
    (statusWord s).getLsbD n =
      (decide (n = 0) && s.busy || decide (n = 1) && s.done || decide (n = 2) && s.err || decide (n = 3) && s.werr
        || !decide (n < 4) && s.cmp.getLsbD (n - 4) || !decide (n < 8) && s.errCode.getLsbD (n - 8)) := by
  have place4 : n - 4 < 32 := by omega
  have place8 : n - 8 < 32 := by omega
  simp (disch := decide) only [statusWord, BitVec.getLsbD_or, BitVec.getLsbD_shiftLeft, BitVec.getLsbD_setWidth,
    flagAt_bit, inWord, place4, place8, decide_true, Bool.true_and]

/-- The four flags, each at its bit. -/
theorem statusWord_flags (s : State) :
    (statusWord s).getLsbD 0 = s.busy ∧ (statusWord s).getLsbD 1 = s.done ∧ (statusWord s).getLsbD 2 = s.err ∧
      (statusWord s).getLsbD 3 = s.werr := by
  refine ⟨?_, ?_, ?_, ?_⟩ <;> rw [statusWord_getLsbD s (by decide)] <;> simp

/-- No flag stands from bit 4 on. -/
theorem statusWord_getLsbD_above_flags (s : State) {n : Nat} (inWord : n < 32) (above : 4 ≤ n) :
    (statusWord s).getLsbD n = (s.cmp.getLsbD (n - 4) || !decide (n < 8) && s.errCode.getLsbD (n - 8)) := by
  have flags (k : Nat) (flag : k < 4) : decide (n = k) = false := decide_eq_false (by omega)
  rw [statusWord_getLsbD s inWord, flags 0 (by decide), flags 1 (by decide), flags 2 (by decide), flags 3 (by decide),
    decide_eq_false (Nat.not_lt.2 above)]
  rfl

/-- Bits 7:4 are `CMP`, with zeros above its two bits. -/
theorem statusWord_getLsbD_cmp (s : State) {n : Nat} (inField : n < 4) :
    (statusWord s).getLsbD (4 + n) = s.cmp.getLsbD n := by
  have below : 4 + n < 8 := by omega
  rw [statusWord_getLsbD_above_flags s (by omega) (by omega)]
  simp [below]

/-- Bits 31:8 are ERRCODE, with zeros above its four bits. -/
theorem statusWord_getLsbD_errCode (s : State) {n : Nat} (inField : n < 24) :
    (statusWord s).getLsbD (8 + n) = s.errCode.getLsbD n := by
  have pastCmp : s.cmp.getLsbD (8 + n - 4) = false := BitVec.getLsbD_of_ge _ _ (by omega)
  rw [statusWord_getLsbD_above_flags s (by omega) (by omega), pastCmp]
  simp

/-- The fields of STATUS and its reserved bits, zeros. -/
theorem statusWord_fields (s : State) :
    (statusWord s).extractLsb' 4 2 = s.cmp ∧ (statusWord s).extractLsb' 6 2 = 0 ∧
      (statusWord s).extractLsb' 8 4 = s.errCode ∧ (statusWord s).extractLsb' 12 20 = 0 := by
  refine ⟨?_, ?_, ?_, ?_⟩ <;> refine BitVec.eq_of_getLsbD_eq fun n inField => ?_ <;>
    rw [BitVec.getLsbD_extractLsb', decide_eq_true inField, Bool.true_and]
  · exact statusWord_getLsbD_cmp s (by omega)
  · rw [show 6 + n = 4 + (2 + n) by omega, statusWord_getLsbD_cmp s (by omega),
      BitVec.getLsbD_of_ge _ _ (by omega)]
    exact BitVec.getLsbD_zero.symm
  · exact statusWord_getLsbD_errCode s (by omega)
  · rw [show 12 + n = 8 + (4 + n) by omega, statusWord_getLsbD_errCode s (by omega),
      BitVec.getLsbD_of_ge _ _ (by omega)]
    exact BitVec.getLsbD_zero.symm

/-! ## The interrupt line (R26, R173, R194) -/

theorem State.irq_eq (s : State) : s.irq = (s.ie && s.done) := rfl

/-- What a host write can do to the line: nothing, or through `IE`, a clear of `DONE`, or an issue. -/
theorem writeTarget_irq_cases (s : State) (t : Target) (d : Word) :
    (s.writeTarget t d).irq = s.irq ∨
    (t = .ctrl ∧ (s.writeTarget t d).irq = (d.getLsbD 0 && s.done)) ∨
    (t = .status ∧ (s.writeTarget t d).irq = (s.irq && !d.getLsbD 1)) ∨
    (t = .cmd ∧ s.busy = false ∧ (s.writeTarget t d).irq = s.ie ∧ ∃ e, checkIssue d s.blen = .error e) ∨
    (t = .cmd ∧ s.busy = false ∧ (s.writeTarget t d).irq = false ∧ ∃ i, checkIssue d s.blen = .ok i) := by
  cases t with
  | ctrl => exact .inr (.inl ⟨rfl, rfl⟩)
  | status =>
    refine .inr (.inr (.inl ⟨rfl, ?_⟩))
    rw [State.writeTarget, State.writeStatus_eq, State.irq_eq, State.irq_eq, Bool.and_assoc]
  | cmd =>
    rw [State.writeTarget]
    rcases State.issue_cases d s with ⟨-, h⟩ | ⟨idle, e, rejected, h⟩ | ⟨idle, i, accepted, h⟩ <;> rw [h]
    · exact .inl rfl
    · exact .inr (.inr (.inr (.inl ⟨rfl, idle, Bool.and_true _, e, rejected⟩)))
    · exact .inr (.inr (.inr (.inr ⟨rfl, idle, Bool.and_false _, i, accepted⟩)))
  | _ => exact .inl rfl

/-- What makes the line rise (R173, R194). -/
theorem step_irq_rises {s t : State} (h : step s = .next t) (low : s.irq = false) (high : t.irq = true) :
    (s.busy = true ∧ t.busy = false ∧ (s.schedule = [] ∨ ∃ es, s.schedule = .engine :: es)) ∨
    (s.busy = false ∧ ∃ w es e, s.schedule = .write 0x0008 w :: es ∧ checkIssue w s.blen = .error e) ∨
    (∃ d es, s.schedule = .write 0x0000 d :: es ∧ d.getLsbD 0 = true) := by
  cases step_effect h with
  | bookkeeping => exact absurd (low.symm.trans high) (by decide)
  | completion es i u turn held => exact .inl ⟨held, rfl, turn.imp_right fun event => ⟨es, event⟩⟩
  | dropped => exact absurd (low.symm.trans high) (by decide)
  | written off d es t event named _ =>
    replace high : ((s.setSchedule es).writeTarget t d).irq = true := high
    have low' : (s.setSchedule es).irq = false := low
    rcases writeTarget_irq_cases (s.setSchedule es) t d with same | ⟨rfl, set⟩ | ⟨rfl, clear⟩ |
      ⟨rfl, idle, -, e, rejected⟩ | ⟨rfl, -, accepted, -⟩
    · simp [same, low'] at high
    · obtain rfl : off = 0x0000 := windowTarget_inj named windowTarget_ctrl
      rw [set, Bool.and_eq_true] at high
      exact .inr (.inr ⟨d, es, event, high.1⟩)
    · simp [clear, low'] at high
    · obtain rfl : off = 0x0008 := windowTarget_inj named windowTarget_cmd
      exact .inr (.inl ⟨idle, d, es, e, event, rejected⟩)
    · simp [accepted] at high
  | reset es =>
    obtain ⟨u, -, reset⟩ := State.applyReset_eq_resetControl (s.setSchedule es)
    rw [reset] at high
    cases high
  | powerOn => cases high

/-- What makes the line fall (R173, R194). -/
theorem step_irq_falls {s t : State} (h : step s = .next t) (high : s.irq = true) (low : t.irq = false) :
    (∃ d es, s.schedule = .write 0x0004 d :: es ∧ d.getLsbD 1 = true) ∨
    (∃ d es, s.schedule = .write 0x0000 d :: es ∧ d.getLsbD 0 = false) ∨
    (s.busy = false ∧ ∃ w es i, s.schedule = .write 0x0008 w :: es ∧ checkIssue w s.blen = .ok i) ∨
    (∃ e es, s.schedule = e :: es ∧ isResetEvent e = true) := by
  obtain ⟨enabled, done⟩ : s.ie = true ∧ s.done = true := by rwa [State.irq_eq, Bool.and_eq_true] at high
  cases step_effect h with
  | bookkeeping => exact absurd (low.symm.trans high) (by decide)
  | completion es i u _ _ _ performed =>
    obtain ⟨ie, -⟩ := exec_keeps performed
    simp [State.irq_eq, ie, enabled] at low
  | dropped => exact absurd (low.symm.trans high) (by decide)
  | written off d es t event named _ =>
    replace low : ((s.setSchedule es).writeTarget t d).irq = false := low
    have high' : (s.setSchedule es).irq = true := high
    rcases writeTarget_irq_cases (s.setSchedule es) t d with same | ⟨rfl, set⟩ | ⟨rfl, clear⟩ |
      ⟨rfl, -, rejected, -⟩ | ⟨rfl, idle, -, i, accepted⟩
    · simp [same, high'] at low
    · obtain rfl : off = 0x0000 := windowTarget_inj named windowTarget_ctrl
      exact .inr (.inl ⟨d, es, event, by simpa [set, done] using low⟩)
    · obtain rfl : off = 0x0004 := windowTarget_inj named windowTarget_status
      exact .inl ⟨d, es, event, by simpa [clear, high'] using low⟩
    · simp [rejected, enabled] at low
    · obtain rfl : off = 0x0008 := windowTarget_inj named windowTarget_cmd
      exact .inr (.inr (.inl ⟨idle, d, es, i, event, accepted⟩))
  | reset es event => exact .inr (.inr (.inr ⟨.reset, es, event, rfl⟩))
  | powerOn es event => exact .inr (.inr (.inr ⟨.powerOn, es, event, rfl⟩))

/-! ## Progress (R168, R169) -/

/-- In the engine's turn a held command completes with the data its rule gives on the data at hand. -/
theorem step_of_turn {s u : State} {i : Instr} {rest : List Event}
    (turn : s.schedule = [] ∨ s.schedule = .engine :: rest) (held : s.busy = true) (isCmd : decode s.cmdr = .ok i)
    (performed : exec i s = .next u) : ∃ t, step s = .next t ∧ SameData u t ∧ t.busy = false ∧ t.done = true := by
  have same : SameData s (s.setSchedule s.schedule.tail) := { stillHeld_setSchedule s s.schedule.tail with }
  obtain ⟨v, performed', same'⟩ := exec_sameData same performed
  refine ⟨v.finish, ?_, { same' with }, rfl, rfl⟩
  rw [step_eq_engineTurn turn, engineTurn_of_held (s := s.setSchedule s.schedule.tail) held isCmd, performed',
    finishOutcome]

/-- The engine's next turn completes a held command, whatever host transactions come before it (R54, R169). -/
theorem run_completes_at_turn {s u : State} {i : Instr} {es tail rest : List Event} (held : s.busy = true)
    (isCmd : decode s.cmdr = .ok i) (performed : exec i s = .next u) (host : ∀ e ∈ es, isHostEvent e = true)
    (events : s.schedule = es ++ tail) (turn : tail = [] ∨ tail = .engine :: rest) :
    ∃ t, run (es.length + 1) s = .next t ∧ SameData u t ∧ t.busy = false ∧ t.done = true := by
  obtain ⟨v, ran, kept, next⟩ := run_stillHeld held events host
  obtain ⟨w, performed', same⟩ := exec_sameData kept.toSameData performed
  obtain ⟨t, completed, same', idle, done⟩ :=
    step_of_turn (next.symm ▸ turn) (kept.busy.trans held) (kept.cmdr ▸ isCmd) performed'
  refine ⟨t, ?_, same.trans same', idle, done⟩
  rw [run_add ran, run_succ completed]
  rfl

end Sys2Proof.Machine

namespace Sys2Proof.Safety

open Sys2Proof.Machine

/-- From a state that meets the invariant the engine's turn answers, and leaves the engine idle (R27 (iv), R168). -/
theorem Inv.engineTurn_next {s : State} (inv : Inv s) :
    ∃ t, engineTurn s = .next t ∧ t.busy = false ∧ t.schedule = s.schedule := by
  cases held : s.busy with
  | false => exact ⟨s, engineTurn_of_idle held, held, rfl⟩
  | true =>
    obtain ⟨i, isCmd, len⟩ := inv.heldAcceptable held
    obtain ⟨u, performed, completed⟩ := engineTurn_completes held isCmd len
    obtain ⟨-, -, -, -, -, -, -, schedule, -⟩ := exec_keeps performed
    exact ⟨u.finish, completed, rfl, schedule⟩

/-- No step from a state that meets the invariant stops. -/
theorem Inv.step_next {s : State} (inv : Inv s) : ∃ t, step s = .next t := by
  unfold step
  split
  · exact inv.engineTurn_next.imp fun _ turn => turn.1
  · exact (inv.setSchedule _).engineTurn_next.imp fun _ turn => turn.1
  all_goals exact ⟨_, rfl⟩

/-- The schedule runs off, and the turn after it leaves the engine idle (R169, log entry 1). -/
theorem Inv.run_comes_to_rest {s : State} (inv : Inv s) :
    ∃ t, run (s.schedule.length + 1) s = .next t ∧ t.busy = false ∧ t.schedule = [] ∧ Inv t := by
  induction events : s.schedule generalizing s with
  | nil =>
    obtain ⟨t, turn, idle, schedule⟩ := inv.engineTurn_next
    have taken : step s = .next t := by simp only [step, events, turn]
    exact ⟨t, run_succ taken, idle, schedule.trans events, everyStepKeepsTheInvariant s t inv taken⟩
  | cons e es ih =>
    obtain ⟨u, first⟩ := inv.step_next
    obtain ⟨t, later, rest⟩ := ih (everyStepKeepsTheInvariant s u inv first) (step_schedule events first)
    exact ⟨t, (run_succ first).trans later, rest⟩

/-! ## The obligations -/

/-- Settles O8: the turn performs the held word, scheduled, by default, or placed. -/
theorem stepRunsTheHeldCommand : Obligations.StepRunsTheHeldCommand := by
  refine ⟨fun s i held isCmd => ⟨fun none => ?_, fun es event => ?_, fun t performed => ?_⟩, fun s i isCmd => ?_⟩
  · simp only [step, none, engineTurn_of_held held isCmd]
  · simp only [step, event]
    exact engineTurn_of_held held isCmd
  · rw [performed]
    rfl
  · rw [withFetchWord_word, step_eq_engineTurn (.inr rfl)]
    exact engineTurn_of_held rfl isCmd

/-- Settles O9: CMD is locked while busy, and an issue while idle is decided by its tests. -/
theorem writeToCmdHasThreeOutcomes : Obligations.WriteToCmdHasThreeOutcomes := by
  intro s w es event
  refine ⟨fun held => ?_, fun idle e rejected => ?_, fun idle i accepted => ?_, rfl, rfl, rfl⟩
  · exact step_of_locked_write event windowTarget_cmd held rfl
  · rw [step_of_unlocked_write event windowTarget_cmd (.inl idle), State.writeTarget,
      State.issue_of_rejected (s := s.setSchedule es) idle rejected]
    rfl
  · rw [step_of_unlocked_write event windowTarget_cmd (.inl idle), State.writeTarget,
      State.issue_of_accepted (s := s.setSchedule es) idle accepted]
    rfl

/-- Settles O10: an acceptable command completes, and no command touches the fields named. -/
theorem completionOfAnAcceptedCommand : Obligations.CompletionOfAnAcceptedCommand := by
  refine ⟨fun s idle => ⟨engineTurn_of_idle idle, step_quiescent idle⟩, fun s i held isCmd len => ?_⟩
  obtain ⟨u, performed, completed⟩ := engineTurn_completes held isCmd len
  obtain ⟨ie, err, errCode, errCmd, werr, blen, cmdr, schedule, draws, answer, -⟩ := exec_keeps performed
  exact ⟨u.finish, u, completed, performed, rfl, rfl, rfl, err, errCode, errCmd, werr, ie, cmdr, blen, answer, schedule,
    draws⟩

/-- Settles O11: STATUS is never locked, and its write is known field by field. -/
theorem statusWriteClearsByOnes : Obligations.StatusWriteClearsByOnes := by
  intro s d es event
  have written := step_of_unlocked_write event windowTarget_status (.inr rfl)
  rw [State.writeTarget, State.writeStatus_eq] at written
  refine ⟨written, fun clear t taken => ?_⟩
  cases written.symm.trans taken
  simp [State.irq_eq, clear]

/-- Settles O12: STATUS is never unspecified to read, and its fields stand at their places. -/
theorem statusReadShowsItsFields : Obligations.StatusReadShowsItsFields := by
  intro s es event
  obtain ⟨busy, done, err, werr⟩ := statusWord_flags s
  exact ⟨statusWord s, step_of_exact_read event windowTarget_status (.inr rfl), busy, done, err, werr,
    statusWord_fields s⟩

/-- Settles O15, effect by effect of a step. -/
theorem whatMovesTheInterruptLine : Obligations.WhatMovesTheInterruptLine :=
  ⟨State.irq_eq, fun _ _ => step_irq_rises, fun _ _ => step_irq_falls⟩

/-- Settles O16: by induction on the schedule, and on the host transactions before the engine's turn. -/
theorem heldCommandCompletesUnlessAResetComesFirst : Obligations.HeldCommandCompletesUnlessAResetComesFirst := by
  refine ⟨fun s inv => inv.run_comes_to_rest, fun s i es rest inv held isCmd host events => ?_⟩
  obtain ⟨j, isCmd', len⟩ := inv.heldAcceptable held
  cases isCmd.symm.trans isCmd'
  obtain ⟨u, performed⟩ := exec_next len
  obtain ⟨tail, events, turn⟩ : ∃ tail, s.schedule = es ++ tail ∧ (tail = [] ∨ tail = .engine :: rest) := by
    obtain none | event := events
    · exact ⟨[], by rw [none, List.append_nil], .inl rfl⟩
    · exact ⟨_, event, .inr rfl⟩
  obtain ⟨t, ran, same, idle, done⟩ := run_completes_at_turn held isCmd performed host events turn
  obtain ⟨-, -, -, -, -, blen, -⟩ := exec_keeps performed
  exact ⟨t, u, ran, performed, same.q, same.buf, same.crc, same.cmp, same.blen.trans blen, idle, done⟩

end Sys2Proof.Safety
end

section
/-! PROOFS. Exceptions (`60_exceptions.md`): when the port answers `BusError` and what a bad offset leaves unchanged (R191),
and that no event stops the engine (R185). -/

namespace Sys2Proof.Machine

/-! ## When the port answers `BusError` (R41, R42, R191) -/

/-- A read, of whatever kind, answers data of a mapped offset. -/
theorem State.hostRead_busError_iff (off : Offset) (s : State) :
    (s.hostRead off).answer = some .busError ↔ windowTarget off = none := by
  rcases State.hostRead_cases off s with ⟨unmapped, h⟩ | ⟨t, mapped, -, -, h⟩ | ⟨t, mapped, -, h⟩
  · simp [h, unmapped]
  · simp [h, mapped]
  · simp [h, mapped]

/-- A write of a mapped offset, dropped or done, is answered `OK`. -/
theorem State.hostWrite_busError_iff (off : Offset) (d : Word) (s : State) :
    (s.hostWrite off d).answer = some .busError ↔ windowTarget off = none := by
  rcases State.hostWrite_cases off d s with ⟨unmapped, h⟩ | ⟨t, mapped, -, -, h⟩ | ⟨t, mapped, -, h⟩
  · simp [h, unmapped]
  · simp [h, mapped]
  · simp [h, mapped]

/-- The answer to a scheduled transaction. -/
theorem step_busError_iff {s t : State} {off : Offset} {d : Word} {es : List Event}
    (event : s.schedule = .read off :: es ∨ s.schedule = .write off d :: es) (taken : step s = .next t) :
    t.answer = some .busError ↔ windowTarget off = none := by
  rcases event with event | event <;> simp only [step, event] at taken <;> cases taken
  · exact State.hostRead_busError_iff off _
  · exact State.hostWrite_busError_iff off d _

/-- A scheduled transaction at an offset that names nothing is only answered. -/
theorem step_of_unmapped {s : State} {off : Offset} {d : Word} {es : List Event}
    (event : s.schedule = .read off :: es ∨ s.schedule = .write off d :: es) (unmapped : windowTarget off = none) :
    step s = .next ((s.setSchedule es).respond .busError) :=
  event.elim (step_of_bad_read · unmapped) (step_of_bad_write · unmapped)

end Sys2Proof.Machine

namespace Sys2Proof.Safety

open Sys2Proof.Machine

/-! ## The obligations -/

/-- Settles O20: the bad offsets are those that name nothing, and only they are answered `BusError`. -/
theorem busErrorExactlyAtBadOffsets : Obligations.BusErrorExactlyAtBadOffsets := by
  intro s t off d es event taken
  rw [← windowTarget_eq_none_iff]
  refine ⟨step_busError_iff event taken, fun unmapped => ?_⟩
  cases (step_of_unmapped event unmapped).symm.trans taken
  exact ⟨rfl, rfl⟩

/-- Settles O28: a held command is a command of acceptable length, so the engine's turn completes it, and the other
events always answer. -/
theorem noStepStopsUnderTheInvariant : Obligations.NoStepStopsUnderTheInvariant := fun _ inv => inv.step_next

end Sys2Proof.Safety
end

section
/-! PROOFS. Reset and power-on (`70_reset_and_hazards.md`): both end in the reset values of the control state (R210, R211),
and a reset changes only the destination of the command it abandons (R212). -/

namespace Sys2Proof.Machine

open Sys2Proof.Safety

/-! ## The reset values (R211) -/

theorem controlReset_resetControl (s : State) : ControlReset s.resetControl :=
  ⟨rfl, rfl, rfl, rfl, rfl, rfl, rfl, rfl, rfl, rfl, rfl⟩

theorem State.resetControl_irq (s : State) : s.resetControl.irq = false := rfl

/-! ## The two reset events (R210) -/

theorem step_of_reset {s : State} {es : List Event} (event : s.schedule = .reset :: es) :
    step s = .next (s.setSchedule es).applyReset := by
  simp only [step, event]

theorem step_of_powerOn {s : State} {es : List Event} (event : s.schedule = .powerOn :: es) :
    step s = .next (s.setSchedule es).powerOn := by
  simp only [step, event]

theorem State.abandon_schedule (i : Instr) (s : State) : (s.abandon i).schedule = s.schedule := by
  rcases State.abandon_cases i s with ⟨d, -, -, h⟩ | ⟨-, -, h⟩ | ⟨-, -, h⟩ <;> rw [h] <;> rfl

/-- A reset ends by resetting the control state, whether or not it abandons a command before. -/
theorem State.exists_applyReset_eq_resetControl (s : State) :
    ∃ u : State, u.schedule = s.schedule ∧ s.applyReset = u.resetControl := by
  rcases State.applyReset_cases s with ⟨-, h⟩ | ⟨-, i, -, h⟩ | ⟨-, e, -, h⟩
  · exact ⟨s, rfl, h⟩
  · exact ⟨s.abandon i, s.abandon_schedule i, h⟩
  · exact ⟨s, rfl, h⟩

/-- Power-on ends by resetting the control state, over drawn contents of Q and BUF. -/
theorem State.exists_powerOn_eq_resetControl (s : State) :
    ∃ u : State, u.schedule = s.schedule ∧ s.powerOn = u.resetControl := by
  obtain ⟨q, m, -, h⟩ := State.powerOn_cases s
  exact ⟨((s.setQ q).setBuf m).draw, rfl, h⟩

theorem step_of_resetEvent {s : State} {e : Event} {es : List Event} (isReset : isResetEvent e = true)
    (event : s.schedule = e :: es) : ∃ u : State, u.schedule = es ∧ step s = .next u.resetControl := by
  cases e with
  | reset =>
    obtain ⟨u, rest, h⟩ := (s.setSchedule es).exists_applyReset_eq_resetControl
    exact ⟨u, rest, h ▸ step_of_reset event⟩
  | powerOn =>
    obtain ⟨u, rest, h⟩ := (s.setSchedule es).exists_powerOn_eq_resetControl
    exact ⟨u, rest, h ▸ step_of_powerOn event⟩
  | read | write | engine => cases isReset

/-! ## What a reset keeps (R212) -/

theorem State.applyReset_of_idle {s : State} (idle : s.busy = false) : s.applyReset = s.resetControl := by
  simp [State.applyReset, idle]

/-- A register that is not the destination of the abandoned command is kept. -/
theorem State.applyReset_readQ_ne {s : State} {i : Instr} {r : QReg} (isCmd : decode s.cmdr = .ok i)
    (other : destQ i ≠ some r) : s.applyReset.readQ r = s.readQ r := by
  by_contra changed
  obtain ⟨-, j, isCmd', dest⟩ := State.abandoned_of_applyReset_readQ_ne changed
  cases isCmd.symm.trans isCmd'
  exact other dest

theorem State.abandon_buf {i : Instr} (noCipher : writesBuf i = false) (s : State) : (s.abandon i).buf = s.buf := by
  rcases State.abandon_cases i s with ⟨d, -, -, h⟩ | ⟨-, cipher, -⟩ | ⟨-, -, h⟩
  · rw [h]; rfl
  · cases cipher.symm.trans noCipher
  · rw [h]

/-- BUF is kept as a list of cells, not only byte by byte, when no cipher command is abandoned. -/
theorem State.applyReset_buf {s : State} {i : Instr} (isCmd : decode s.cmdr = .ok i) (noCipher : writesBuf i = false) :
    s.applyReset.buf = s.buf := by
  rcases State.applyReset_cases s with ⟨-, h⟩ | ⟨-, j, isCmd', h⟩ | ⟨-, e, -, h⟩ <;> rw [h, State.resetControl_buf]
  cases isCmd.symm.trans isCmd'
  exact State.abandon_buf noCipher s

theorem State.memRead_applyReset_ge {s : State} {a : Nat} (above : s.blen.toNat ≤ a) :
    memRead s.applyReset.buf a = memRead s.buf a := by
  by_contra changed
  obtain ⟨-, below, -⟩ := State.abandoned_of_applyReset_memRead_ne changed
  exact Nat.not_lt.2 above below

end Sys2Proof.Machine

namespace Sys2Proof.Safety

open Sys2Proof.Machine

/-! ## The obligations -/

/-- Settles O59: both reset events end by resetting the control state, and neither touches the rest of the schedule. -/
theorem resetPutsControlAtResetValues : Obligations.ResetPutsControlAtResetValues := by
  intro s e es isReset event
  obtain ⟨u, rest, taken⟩ := step_of_resetEvent isReset event
  exact ⟨u.resetControl, taken, controlReset_resetControl u, u.resetControl_irq, rest⟩

/-- Settles O60: an idle block only has its control state reset; a busy one first abandons the held command, which can
change nothing but its destination. -/
theorem resetKeepsAllButTheAbandonedDestination : Obligations.ResetKeepsAllButTheAbandonedDestination := by
  intro s es event
  obtain ⟨u, -, isReset⟩ := (s.setSchedule es).exists_applyReset_eq_resetControl
  refine ⟨(s.setSchedule es).applyReset, step_of_reset event, isReset ▸ rfl, isReset ▸ rfl, ?idle, ?held⟩
  case idle =>
    intro idle
    rw [State.applyReset_of_idle (s := s.setSchedule es) idle]
    exact ⟨rfl, rfl⟩
  case held =>
    intro _ i isCmd
    exact ⟨fun r => State.applyReset_readQ_ne (s := s.setSchedule es) isCmd,
      State.applyReset_buf (s := s.setSchedule es) isCmd,
      fun a => State.memRead_applyReset_ge (s := s.setSchedule es)⟩

/-- Settles O26: the state after reset is its own control reset, with an empty BUF and nothing scheduled. -/
theorem resetStateMeetsTheInvariant : Obligations.ResetStateMeetsTheInvariant :=
  ⟨inv_resetControl (s := State.reset) memory_nil_wf, controlReset_resetControl State.reset, rfl, rfl⟩

end Sys2Proof.Safety
end

section
/-! PROOFS. The model's two stops (log entry 7): a length that the issue rejects, and a held word that is no command. Both
lie outside the invariant (R27 (iv)). -/

namespace Sys2Proof.Machine

/-- An engine that holds a word that is no command stops (log entry 7). -/
theorem engineTurn_of_held_error {s : State} {e : CmdError} (held : s.busy = true) (noCmd : decode s.cmdr = .error e) :
    engineTurn s = .fault .heldWordNotACommand := by
  rw [engineTurn, if_pos held, noCmd]

end Sys2Proof.Machine

namespace Sys2Proof.Safety

open Sys2Proof.Machine

/-- From a state that meets the invariant the engine's turn does not fault (R27 (iv), R185). -/
theorem Inv.engineTurn_ne_fault {s : State} (inv : Inv s) (f : Fault) : engineTurn s ≠ .fault f := by
  obtain ⟨t, turn, -, -⟩ := inv.engineTurn_next
  simp [turn]

/-- Settles O51: a command stops for the lengths that are not acceptable, the engine for a word that does not decode, and
under the invariant the engine's turn answers a next state instead. -/
theorem theModelsTwoStopsLieOutsideTheInvariant : Obligations.TheModelsTwoStopsLieOutsideTheInvariant := by
  refine ⟨fun k s badLength => ⟨?enc, ?dec⟩, fun s tooLong => ?crc, fun _ _ => engineTurn_of_held_error,
    fun _ f stops inv => inv.engineTurn_ne_fault f stops⟩
  case enc => exact exec_fault_of_not_acceptable fun len => badLength ((acceptable_iff.1 len).1 ⟨k, .inl rfl⟩)
  case dec => exact exec_fault_of_not_acceptable fun len => badLength ((acceptable_iff.1 len).1 ⟨k, .inr rfl⟩)
  case crc => exact exec_fault_of_not_acceptable fun len => Nat.not_lt.2 ((acceptable_iff.1 len).2 rfl) tooLong

end Sys2Proof.Safety
end
